-- ==== Sys2Proof/Word.lean ====
section
/-! DEFINITION. The words of FIRFILT: the widths of `spec/30_encoding.md` (R60, R62, R64, R66) and the 64-bit
datapath word of instance B64 (`spec/00_scope.md` R11). -/

namespace Sys2Proof

/-- One value of the number format F of instance B64, as its 64-bit pattern (R11); also one word of any of the
three address spaces (R40). Bit 63 is the most significant bit. -/
abbrev Word := BitVec 64

/-- A command word of format CMD (R62): `OP` in bits 67..64, `ARG` in bits 63..0. -/
abbrev CommandWord := BitVec 68

/-- A response word of format RSP (R64): `STATUS` in bits 65..64, `DATA` in bits 63..0. -/
abbrev ResponseWord := BitVec 66

/-- A construction record of format CFGREC (R66). -/
abbrev RecordWord := BitVec 233

end Sys2Proof
end

