-- ==== Sys2Proof/Config.lean ====
section
/-! DEFINITION. What the implementation fixes and what the spec leaves free: the named open parameters of
`spec/93_implementation_defined.md` section 3. A constant declared `opaque` here has no body, so nothing can be
proved about its value: whatever is proved holds for every value. The per-instance parameters (`KIND`, `NUMTAPS`,
`FS`, `F0`, `F1`, `NORMALIZE`) are not here: they arrive in the construction record and live in the instance. -/

namespace Sys2Proof

/-- `MAX_NUM_FILTER_TAPS` (R8). -/
def Config.maxTaps : Nat := 1000

/-- FREE VALUE. The sign bit (bit 51) and the payload (bits 50..0) of the NaN result drawn at number `d` of
`State.draws` (R12: every NaN result is a draw from the set of quiet NaNs). Log entry 1. -/
opaque Config.freeNaN (d : Nat) : BitVec 52

/-- FREE VALUE. The sine of the floating-point library on a positive finite operand, before properties S1 to S5 of
R15 are imposed on it (`Machine/Sine.lean` imposes them). Log entry 2. -/
opaque Config.sineRaw (x : Word) : Word

/-- FREE VALUE. The sign bit (bit 51) and the payload (bits 50..0) of the quiet NaN that the sine returns for an
infinity or a NaN (R15, S4); a function of the operand, because `fsin` depends on its operand alone. Log entry 2. -/
opaque Config.sineNaN (x : Word) : BitVec 52

/-- FREE VALUE. How many further bits the comparison of `Config.sineRaw` with the sine takes at operand `x` before it
decides on S3 of R15 (`Machine/Sine.lean`). Log entry 2. -/
opaque Config.sinePrecision (x : Word) : Nat

/-- FREE VALUE. The choice of `SIN_ULP` of R15 (S3), the accuracy of the sine in units in the last place, before it is
seen to be a positive number that the sine meets (`B64.sinUlp` in `Machine/Sine.lean`). Log entry 2. -/
opaque Config.sinUlpChoice : ℚ

/-- `LATENCY` of R17, the finite time from the acceptance of a command to its response. No rule of the spec reads
it, and nothing in the model does. Log entry 3. -/
opaque Config.latency : Nat

end Sys2Proof
end

