-- ==== Sys2Proof/Syntax.lean ====
section
/-! DEFINITION. The operations of FIRFILT: one constructor of `Instr` for each row of `spec/opcode_table.json`, and the
forms in which an operation reaches the machine (`spec/30_encoding.md` R62, R66, R67). -/

namespace Sys2Proof

/-- The fields of a construction record (R66), each in its carrier. Every pattern is well formed; whether it yields an
instance is for validation to say. -/
structure Record where
  /-- `NORMALIZE`, bit 232: 1 divide by the gain, 0 do not. -/
  normalize : BitVec 1
  /-- `KIND`, bits 231..224, unsigned: 0 LowPass, 1 HighPass, 2 BandPass, others rejected by check 8. -/
  kind : BitVec 8
  /-- `NUMTAPS`, bits 223..192, two's-complement. -/
  numTaps : BitVec 32
  /-- `FS`, bits 191..128. -/
  fs : Word
  /-- `F0`, bits 127..64. -/
  f0 : Word
  /-- `F1`, bits 63..0. -/
  f1 : Word
  deriving DecidableEq, Repr

/-- The operations. The ignored `ARG` of NOP, RDGAIN and of the illegal operation codes is no operand (R65(c), R69). -/
inductive Instr
  /-- CONSTRUCT (R80): the design phase, on a construction record. -/
  | construct (record : Record)
  /-- RESET (R181): the reset pin. -/
  | reset
  /-- NOP (R140). -/
  | nop
  /-- PROCESS (R110), with its sample. -/
  | process (sample : Word)
  /-- RDTAP (R130), with the tap index. -/
  | rdtap (idx : Nat)
  /-- RDGAIN (R134). -/
  | rdgain
  /-- RDSR (R136), with the register index. -/
  | rdsr (idx : Nat)
  /-- RDCFG (R138), with the configuration index. -/
  | rdcfg (idx : Nat)
  /-- ILLEGAL_6_7 (R68, R157): operation code 6 or 7. -/
  | illegal67 (op : BitVec 4)
  /-- ILLEGAL_8_F (R68, R157): operation code 8 to 15. -/
  | illegal8F (op : BitVec 4)
  deriving DecidableEq, Repr

/-- What carries an operation to the machine: a record at elaboration (R66), the reset pin (R67) or a word on the
command port (R62). -/
inductive Encoded
  | record (r : RecordWord)
  | pin (rst : BitVec 1)
  | command (w : CommandWord)
  deriving DecidableEq, Repr

/-- Why a carrier holds no operation. -/
inductive DecodeError
  /-- `rst = 0` on the reset pin: no RESET happens (R67). -/
  | pinLow
  /-- Bits above the width of the carrier are set: the port has no such wires (R60, R62, R66). -/
  | beyondWidth
  deriving DecidableEq, Repr

end Sys2Proof
end

