-- ==== Sys2Proof/Machine/State.lean ====
section
/-! DEFINITION. The state of the machine (`spec/10_state.md`): the instance with its shift register, tap ROM and
configuration registers, and beside it the model's own fields (the host's inputs, what the host received, the draw
counter). The list with rules and reset values is INVENTORY.md, "State". -/

namespace Sys2Proof.Machine

/-- The kinds of filter (R7): a closed set. -/
inductive FilterKind
  | lowPass
  | highPass
  | bandPass
  deriving DecidableEq, Repr

/-- The eight constraints of validation (R150), in the order of their checks. -/
inductive Constraint
  /-- 1: `Fs > 0`. -/
  | fsPositive
  /-- 2: if `f1 != 0`, `f0 < f1`. -/
  | bandOrdered
  /-- 3: `f0 > 0`. -/
  | f0Positive
  /-- 4: `f0 < Fs/2`. -/
  | f0BelowNyquist
  /-- 5: if `f1 != 0`, `f1 > 0`. -/
  | f1Positive
  /-- 6: if `f1 != 0`, `f1 < Fs/2`. -/
  | f1BelowNyquist
  /-- 7: `0 < numTaps <= 1000`. -/
  | numTapsInRange
  /-- 8: the kind is one of the three. -/
  | kindRecognised
  deriving DecidableEq, Repr

/-- The three address spaces (R40). -/
inductive Space
  | tap
  | sr
  | cfg
  deriving DecidableEq, Repr

/-- The values of `STATUS` that are produced (R64). -/
inductive Status
  | ok
  | illegalOp
  | badIndex
  deriving DecidableEq, Repr

/-- One constructed instance (R22): its configuration registers (R25), its tap ROM (R23) and its shift register (R20).
The gain has one home and two readers, RDGAIN and `cfg[7]`. `MAXTAPS` (`cfg[9]`) is the constant `Config.maxTaps`. -/
structure Instance where
  /-- `cfg[0]`, in its carrier. -/
  kind : BitVec 8
  /-- `cfg[1]`, in its carrier. -/
  numTaps : BitVec 32
  /-- `cfg[2]`. -/
  fs : Word
  /-- `cfg[3]`. -/
  f0 : Word
  /-- `cfg[4]`. -/
  f1 : Word
  /-- `cfg[5]`. -/
  lambda : Word
  /-- `cfg[6]`. -/
  phi : Word
  /-- `cfg[7]`, the gain (R24). -/
  gain : Word
  /-- `cfg[8]`, in its carrier. -/
  normalize : BitVec 1
  /-- The tap ROM, `taps[0]` first. -/
  taps : List Word
  /-- The shift register, `sr[0]`, the most recent sample, first. -/
  sr : List Word
  deriving DecidableEq, Repr

/-- What the host does, one entry an act, in order (R18, R61, R66, R67). Log entries 7 and 8. -/
inductive HostInput
  /-- A construction record is presented for elaboration (R66, R194). -/
  | elaborate (record : RecordWord)
  /-- A clock edge: the level of the reset pin, and the command word offered (`cmd_valid = 1`) or none. -/
  | edge (rst : BitVec 1) (cmd : Option CommandWord)
  deriving DecidableEq, Repr

/-- What the host receives. -/
inductive HostOutput
  /-- A response word (R64). -/
  | response (rsp : ResponseWord)
  /-- `InvalidParameter` from a CONSTRUCT that failed (R150, R155). -/
  | invalidParameter (violated : Constraint)
  deriving DecidableEq, Repr

/-- The machine. -/
structure State where
  /-- The instance, if a CONSTRUCT has succeeded: before that there is none (R153, R184). -/
  inst : Option Instance
  /-- The model's own: how many NaN results have been drawn (R12, log entries 1 and 12). -/
  draws : Nat
  /-- The model's own: the host's acts still to come, the next one first (R18, log entry 7). -/
  inputs : List HostInput
  /-- The model's own: what the host has received, the earliest first (R193, log entry 7). -/
  outputs : List HostOutput
  deriving DecidableEq, Repr

/-- Why the machine stops. The block itself never does (R193): both are cases that the spec says do not arise. -/
inductive Fault
  /-- Raised by every command and by RESET when no instance exists: "no command port to talk to", "no step relation
  exists" (R153). Safe: nothing is claimed of what cannot happen. Log entry 6. -/
  | noInstance
  /-- Raised by CONSTRUCT when an instance exists: it "cannot be repeated on an existing instance; a different filter is
  a different instance" (R19). Safe. Log entry 5. -/
  | instanceExists
  deriving DecidableEq, Repr

/-- Why the model gives a step no meaning. -/
inductive Refusal
  /-- An instruction without a meaning in the model. Raised by no arm: every instruction has its meaning. Safe. -/
  | notModelled (mnemonic : String)
  deriving DecidableEq, Repr

/-- `N` (R7): the value of `NUMTAPS` of the instance, in 1..1000 for every instance that CONSTRUCT makes. -/
def Instance.N (i : Instance) : Nat := i.numTaps.toInt.toNat

/-- The canonical form of an instance: `N` in its range, exactly `N` words in the tap ROM and in the shift register
(R20, R23, R40), a recognised kind (R88). -/
def Instance.wf (i : Instance) : Bool :=
  decide (1 ≤ i.numTaps.toInt) && decide (i.numTaps.toInt ≤ Config.maxTaps) && i.taps.length == i.N &&
    i.sr.length == i.N && decide (i.kind.toNat ≤ 2)

/-- The form of the memory: the instance, where there is one, has its spaces at their sizes. Log entry 9. -/
def Memory.wf (s : State) : Bool :=
  match s.inst with
  | none => true
  | some i => i.wf

/-- The machine before the first CONSTRUCT: no instance (R153, R184). The reset state of an instance (R29) is what a
successful CONSTRUCT and a RESET leave in `inst`. Log entry 4. -/
def State.reset : State where
  inst := none
  draws := 0
  inputs := []
  outputs := []

end Sys2Proof.Machine
end

