-- ==== Sys2Proof/Machine/Flags.lean ====
section
/-! DEFINITION. FIRFILT has no flags (`spec/10_state.md` R27). What a command has to tell beside its value it tells in
the `STATUS` field of its response word (`spec/30_encoding.md` R64); this file assembles that word and reads it. -/

namespace Sys2Proof.Machine

/-- The code of a status in the `STATUS` field; 3 is never produced (R64). -/
def statusCode : Status → BitVec 2
  | .ok => 0
  | .illegalOp => 1
  | .badIndex => 2

/-- The response word `status ++ data` (R64). -/
def responseWord (st : Status) (data : Word) : ResponseWord := statusCode st ++ data

/-- `STATUS`, bits 65..64 of a response word. -/
def statusField (r : ResponseWord) : BitVec 2 := r.extractLsb' 64 2

/-- `DATA`, bits 63..0 of a response word. -/
def dataField (r : ResponseWord) : Word := r.extractLsb' 0 64

/-- The code 1 to 8 of `InvalidParameter` (R150): the number of the check that failed. -/
def constraintCode : Constraint → Nat
  | .fsPositive => 1
  | .bandOrdered => 2
  | .f0Positive => 3
  | .f0BelowNyquist => 4
  | .f1Positive => 5
  | .f1BelowNyquist => 6
  | .numTapsInRange => 7
  | .kindRecognised => 8

end Sys2Proof.Machine
end

