-- ==== Sys2Proof/Machine/B64.lean ====
section
/-! DEFINITION. Instance B64 of the numerics record: the layout of a binary64 word (`spec/00_scope.md` R11), its
arithmetic (R12), its comparisons (R13) and the constant pi (R14). The sine (R15) is in `Machine/Sine.lean`.

A finite word denotes an integer multiple of `2^-1074`, the smallest positive binary64 value. The model computes in
those multiples ("units"): sums and products are exact integers or quotients of integers, and one function,
`roundMag`, rounds the exact quotient to the format. Shifts `1 <<< k` stand for `2 ^ k`: both Lean's elaborator and its
kernel evaluate them on numerals. -/

namespace Sys2Proof.Machine.B64

/-! ## Layout (R11) -/

/-- Bit 63, the sign. -/
def sign (w : Word) : Bool := w.msb

/-- Bits 62..0 as a number: biased exponent and fraction together. On words of one sign it orders the values. -/
def mag (w : Word) : Nat := w.toNat % 1 <<< 63

/-- Bits 62..52, the biased exponent. -/
def expField (w : Word) : Nat := mag w / 1 <<< 52

/-- Bits 51..0, the fraction. -/
def fracField (w : Word) : Nat := w.toNat % 1 <<< 52

/-- The magnitude field of an infinity: exponent 2047, fraction 0. -/
def infMag : Nat := 2047 * 1 <<< 52

/-- Exponent 2047 with a non-zero fraction. -/
def isNaN (w : Word) : Bool := decide (infMag < mag w)

/-- A NaN whose bit 51 is 1. -/
def isQuietNaN (w : Word) : Bool := isNaN w && w.getLsbD 51

/-- Exponent 2047 with fraction 0. -/
def isInf (w : Word) : Bool := mag w == infMag

/-- A signed zero. -/
def isZero (w : Word) : Bool := mag w == 0

/-- Neither a NaN nor an infinity. -/
def isFinite (w : Word) : Bool := decide (mag w < infMag)

/-- The word with sign `s` and magnitude field `m`. -/
def pack (s : Bool) (m : Nat) : Word := BitVec.ofNat 64 ((if s then 1 <<< 63 else 0) + m)

/-- The quiet NaN with sign bit and payload `b` (bit 51 of `b` the sign, bits 50..0 the payload). -/
def quietNaN (b : BitVec 52) : Word := pack b.msb (0xFFF * 1 <<< 51 + b.toNat % 1 <<< 51)

/-! ## The constants (R11, R14) -/

/-- `ZERO`, positive zero. -/
def zero : Word := 0x0000000000000000#64
/-- `ONE`. -/
def one : Word := 0x3FF0000000000000#64
/-- `TWO`. -/
def two : Word := 0x4000000000000000#64
/-- `PI` (R14). -/
def pi : Word := 0x400921FB54442D18#64

/-! ## Finite values in units of `2^-1074` -/

/-- `2^1074`, the number of units in 1. -/
def unitsInOne : Nat := 1 <<< 1074

/-- The magnitude of a finite word in units (R11): a subnormal is its fraction, a normal value
`1.fraction * 2^(exponent - 1023)`. -/
def unitsMag (w : Word) : Nat :=
  if expField w = 0 then fracField w else ((1 <<< 52) + fracField w) <<< (expField w - 1)

/-- The value of a finite word in units. -/
def units (w : Word) : Int := if sign w then -(unitsMag w : Int) else unitsMag w

/-- The exact value of a finite word. -/
def toRat (w : Word) : ℚ := (units w : ℚ) / (unitsInOne : ℚ)

/-! ## Rounding (R12: round to nearest, ties to even; subnormals kept; overflow to infinity) -/

/-- The exponent of the unit in the last place, in units, at a magnitude whose integer part is `a` units: 0 for a
subnormal or a value of the lowest normal binade, and then one more for each binade. -/
def ulpExp (a : Nat) : Nat := Nat.log2 a - 52

/-- `n / d` rounded to an integer, ties to even. -/
def roundQuot (n d : Nat) : Nat :=
  if d < 2 * (n % d) ∨ (d = 2 * (n % d) ∧ n / d % 2 = 1) then n / d + 1 else n / d

/-- The magnitude field of the binary64 value nearest to `n / d` units (`0 < d`), ties to even; an infinity when the
rounded value is beyond the largest finite one. A mantissa that rounds up to `2^53` carries into the exponent field. -/
def roundMag (n d : Nat) : Nat :=
  min (ulpExp (n / d) <<< 52 + roundQuot n (d <<< ulpExp (n / d))) infMag

/-! ## Arithmetic (R12). `q` is the quiet NaN that a NaN result is drawn as. -/

/-- `fneg`: flips bit 63 and nothing else. -/
def fneg (a : Word) : Word := a ^^^ 0x8000000000000000#64

/-- `fadd`. -/
def fadd (q a b : Word) : Word :=
  if isNaN a || isNaN b then q
  else if isInf a then (if isInf b && sign a != sign b then q else a)
  else if isInf b then b
  else if units a + units b = 0 then pack (sign a && sign b) 0
  else pack (decide (units a + units b < 0)) (roundMag (units a + units b).natAbs 1)

/-- `fsub`. -/
def fsub (q a b : Word) : Word := fadd q a (fneg b)

/-- `fmul`. -/
def fmul (q a b : Word) : Word :=
  if isNaN a || isNaN b then q
  else if isInf a || isInf b then
    (if isZero a || isZero b then q else pack (sign a ^^ sign b) infMag)
  else pack (sign a ^^ sign b) (roundMag (unitsMag a * unitsMag b) unitsInOne)

/-- `fdiv`. -/
def fdiv (q a b : Word) : Word :=
  if isNaN a || isNaN b then q
  else if isInf a then (if isInf b then q else pack (sign a ^^ sign b) infMag)
  else if isInf b then pack (sign a ^^ sign b) 0
  else if isZero b then (if isZero a then q else pack (sign a ^^ sign b) infMag)
  else pack (sign a ^^ sign b) (roundMag (unitsMag a * unitsInOne) (unitsMag b))

/-- `ofInt`, exact for `-2^31 <= k < 2^31`. -/
def ofInt (k : Int) : Word := pack (decide (k < 0)) (roundMag (k.natAbs * unitsInOne) 1)

/-! ## Comparisons (R13: quiet; false on a NaN; the two zeros equal) -/

/-- The place of a word that is no NaN in the order of the values. -/
def orderKey (w : Word) : Int := if sign w then -(mag w : Int) else mag w

/-- `flt`, `a < b`. -/
def flt (a b : Word) : Bool := !isNaN a && !isNaN b && decide (orderKey a < orderKey b)
/-- `fgt`, `a > b`. -/
def fgt (a b : Word) : Bool := flt b a
/-- `feq`, `a = b`. -/
def feq (a b : Word) : Bool := !isNaN a && !isNaN b && decide (orderKey a = orderKey b)
/-- `fne`, `a != b`. -/
def fne (a b : Word) : Bool := !feq a b

end Sys2Proof.Machine.B64
end

