-- ==== Sys2Proof/Machine/Sine.lean ====
section
/-! DEFINITION. The sine of instance B64 (`spec/00_scope.md` R15). The spec gives no sine table: `fsin` is any function
of its operand with properties S1 to S5, and `SIN_ULP` any positive number. The model takes an opaque function
(`Config.sineRaw`) on the positive finite words and imposes the properties on it: where its value at `x` is seen to have
S3 and S5 it stands, and elsewhere the binary64 value nearest to the sine takes its place. S1, S2 and S4 are built into
`fsin`.

S3 compares a rational with a sine, which is irrational at every rational operand but 0. So the comparison is never a
tie, and it is decided from a finite part of the power series; how long a part is the opaque `Config.sinePrecision`.
Whatever is seen to have S3 has it, and whatever has S3 is seen to have it at some precision. Log entry 2. -/

namespace Sys2Proof.Machine.B64

/-- The first `n` terms of the power series of the sine at `x`. -/
def sineSeries (x : ℚ) : Nat → ℚ
  | 0 => 0
  | n + 1 => sineSeries x n + (-1) ^ n * x ^ (2 * n + 1) / (2 * n + 1).factorial

/-- The sine of `x`, `0 <= x`, within `sineError k`: enough terms of its power series. -/
def sineApprox (k : Nat) (x : ℚ) : ℚ := sineSeries x (4 * ⌈x⌉.toNat + 600 + k)

/-- The distance that `sineApprox k` keeps from the sine: far below the smallest binary64 value, and halved with each
further bit of precision `k`. -/
def sineError (k : Nat) : ℚ := 1 / (1 <<< (1080 + k) : Nat)

/-- `ulp` of R15 at a magnitude `y` (`0 <= y`): the spacing of binary64 values there. -/
def ulp (y : ℚ) : ℚ := (1 <<< ulpExp (⌊y * unitsInOne⌋.toNat) : Nat) / unitsInOne

/-- A lower bound of the magnitude of the sine of `x`, at precision `k`. -/
def sineMagLow (k : Nat) (x : Word) : ℚ := max 0 (|sineApprox k (toRat x)| - sineError k)

/-- `y` is seen, at the precision of operand `x`, to be within `bound` units in the last place of the sine of `x` (S3)
and within 1 (S5). -/
def sineAdmits (bound : ℚ) (x y : Word) : Bool :=
  isFinite y && decide (|toRat y| ≤ 1) &&
    decide (|toRat y - sineApprox (Config.sinePrecision x) (toRat x)| + sineError (Config.sinePrecision x) ≤
      bound * ulp (sineMagLow (Config.sinePrecision x) x))

/-- `Config.sineRaw` is seen to meet `bound` on every positive finite word. -/
def sineMeets (bound : ℚ) : Bool :=
  decide (∀ x : Word, sign x = false → isZero x = false → isFinite x = true →
    sineAdmits bound x (Config.sineRaw x) = true)

/-- `SIN_ULP` (R15): an open positive number, 1 by default. Every number from 1 on is one that some sine meets, the
nearest binary64 value for one; a number below 1 stands where `Config.sineRaw` is seen to meet it. -/
def sinUlp : ℚ :=
  if Config.sinUlpChoice ≤ 0 then 1
  else if 1 ≤ Config.sinUlpChoice then Config.sinUlpChoice
  else if sineMeets Config.sinUlpChoice then Config.sinUlpChoice
  else 1

/-- The binary64 value nearest to `sineMagLow`, with the sign of the sine. -/
def sineNearest (x : Word) : Word :=
  let y := sineMagLow 0 x * unitsInOne
  pack (decide (sineApprox 0 (toRat x) < 0)) (roundMag y.num.natAbs y.den)

/-- The sine of a positive word that is no NaN: S1 at zero, S4 at infinity, S3 and S5 between. -/
def sineOfPositive (x : Word) : Word :=
  if isZero x then x
  else if isInf x then quietNaN (Config.sineNaN x)
  else if sineAdmits sinUlp x (Config.sineRaw x) then Config.sineRaw x
  else sineNearest x

/-- `fsin` (R15). A negative operand goes through its negation (S2). -/
def fsin (x : Word) : Word :=
  if isNaN x then quietNaN (Config.sineNaN x)
  else if sign x then fneg (sineOfPositive (fneg x))
  else sineOfPositive x

end Sys2Proof.Machine.B64
end

