-- ==== Sys2Proof/Machine/Num.lean ====
section
/-! DEFINITION. The numerics record `Num` (`spec/00_scope.md` R10). Every arithmetic step of the design phase and of the
streaming phase is written with its members and with nothing else, one member call per operation (R16). `b64` is the
instance of the hardware (R11 to R15); the instance REAL is in `Machine/Real.lean`. -/

namespace Sys2Proof.Machine

/-- The numerics record (R10). -/
structure Num (F : Type) where
  zero : F
  one : F
  two : F
  pi : F
  ofInt : Int → F
  fadd : F → F → F
  fsub : F → F → F
  fmul : F → F → F
  fdiv : F → F → F
  fneg : F → F
  fsin : F → F
  flt : F → F → Bool
  fgt : F → F → Bool
  feq : F → F → Bool
  fne : F → F → Bool

/-- Instance B64, with `q` the quiet NaN that its NaN results are drawn as (R12, log entry 1). -/
def b64 (q : Word) : Num Word where
  zero := B64.zero
  one := B64.one
  two := B64.two
  pi := B64.pi
  ofInt := B64.ofInt
  fadd := B64.fadd q
  fsub := B64.fsub q
  fmul := B64.fmul q
  fdiv := B64.fdiv q
  fneg := B64.fneg
  fsin := B64.fsin
  flt := B64.flt
  fgt := B64.fgt
  feq := B64.feq
  fne := B64.fne

/-- Instance B64 whose NaN results are the draw of number `d` (R12): a free value for each `d`. -/
def b64Draw (d : Nat) : Num Word := b64 (B64.quietNaN (Config.freeNaN d))

end Sys2Proof.Machine
end

