-- ==== Sys2Proof/Machine/Operands.lean ====
section
/-! DEFINITION. How the operands of a construction record are read (`spec/40_design.md` R80, R88) and how a
configuration register reads as a 64-bit word (`spec/10_state.md` R25). The operands of the commands are read by the
decoder: a sample as it is, an index as the unsigned value of the whole field (`spec/30_encoding.md` R65). -/

namespace Sys2Proof.Machine

/-- `kind = toInt_u(rec.KIND)` (R80). -/
def kindOperand (r : Record) : Nat := r.kind.toNat

/-- `n_s = toInt_s(rec.NUMTAPS)` (R80). -/
def tapCountOperand (r : Record) : Int := r.numTaps.toInt

/-- The filter kind with a given number (R7), if there is one. -/
def kindOfNumber : Nat → Option FilterKind
  | 0 => some .lowPass
  | 1 => some .highPass
  | 2 => some .bandPass
  | _ => none

/-- The configuration register with index `idx` as a 64-bit word (R25): the integer registers extended, the others as
they are. There is none at 10 and above. -/
def Instance.cfgWord (i : Instance) : Nat → Option Word
  | 0 => some (i.kind.zeroExtend 64)
  | 1 => some (i.numTaps.signExtend 64)
  | 2 => some i.fs
  | 3 => some i.f0
  | 4 => some i.f1
  | 5 => some i.lambda
  | 6 => some i.phi
  | 7 => some i.gain
  | 8 => some (i.normalize.zeroExtend 64)
  | 9 => some (BitVec.ofNat 64 Config.maxTaps)
  | _ => none

end Sys2Proof.Machine
end

