-- ==== Sys2Proof/Machine/Ops.lean ====
section
/-! DEFINITION. The operations that the meanings share: access to the three address spaces (`spec/20_memory.md`), the
answer to a command, and the two forms of error (`spec/60_exceptions.md`). The block has no trap: an error response is
an ordinary response (R159) and a failed construction leaves nothing (R153), so there is no context to save and no
return from an exception (R154). -/

namespace Sys2Proof.Machine

/-! ## The address spaces (R40, R41) -/

/-- `MemRead(space, idx)`; none where it is not defined (R41). -/
def Instance.memRead (i : Instance) : Space → Nat → Option Word
  | .tap, idx => if idx < i.N then i.taps[idx]? else none
  | .sr, idx => if idx < i.N then i.sr[idx]? else none
  | .cfg, idx => i.cfgWord idx

/-- `MemWrite` of every word of `SR`, the only write there is (R41, R44). -/
def Instance.writeSr (i : Instance) (sr : List Word) : Instance := { i with sr := sr }

/-- The shift register after a push of `x`: the sample at the front, the oldest entry gone, `n` entries kept (R111). -/
def shiftIn (n : Nat) (x : Word) (sr : List Word) : List Word := (x :: sr).take n

/-- The shift register of the reset state: `n` positive zeros (R29). -/
def zeroSr (n : Nat) : List Word := List.replicate n B64.zero

/-! ## What a step leaves (R61, R64) -/

/-- `respond(status, data)`: the host receives the response word. -/
def State.respond (s : State) (st : Status) (data : Word) : State :=
  { s with outputs := s.outputs ++ [.response (responseWord st data)] }

/-- The answer to a command that reads one word: the word, or BAD_INDEX with nothing read (R41, R158). -/
def State.answerRead (s : State) : Option Word → State
  | some d => s.respond .ok d
  | none => s.respond .badIndex 0

/-- The instance becomes `i`. -/
def State.withInst (s : State) (i : Instance) : State := { s with inst := some i }

/-- `k` NaN results have been drawn (R12, log entry 1). -/
def State.advanceDraws (s : State) (k : Nat) : State := { s with draws := s.draws + k }

/-- A command or a RESET acts on the instance; without one there is no port to reach (R153, log entry 6). -/
def onInstance (s : State) (f : Instance → State) : Host.Outcome State Fault Refusal :=
  match s.inst with
  | none => .fault .noInstance
  | some i => .next (f i)

/-! ## Errors -/

/-- `raise InvalidParameter(code)` (R150, R153, R155): construction does not complete, the caller receives the code,
nothing else happens. -/
def State.raiseInvalidParameter (s : State) (c : Constraint) : State :=
  { s with outputs := s.outputs ++ [.invalidParameter c] }

/-- The answer to an illegal operation code (R157). -/
def State.illegalOp (s : State) : State := s.respond .illegalOp 0

end Sys2Proof.Machine
end

