-- ==== Sys2Proof/Machine/Access.lean ====
section
/-! DEFINITION. The introspection accessors and NOP (`spec/42_access.md`). None of them writes any state (R141); each
answers with one response. -/

namespace Sys2Proof.Machine

/-- NOP (R140): response OK 0. -/
def execNop (s : State) : Host.Outcome State Fault Refusal :=
  onInstance s fun _ => s.respond .ok 0

/-- RDTAP (R130): one word of the tap ROM, or BAD_INDEX. -/
def execRdtap (idx : Nat) (s : State) : Host.Outcome State Fault Refusal :=
  onInstance s fun i => s.answerRead (i.memRead .tap idx)

/-- RDGAIN (R134): the gain, whether or not `NORMALIZE` is 1. -/
def execRdgain (s : State) : Host.Outcome State Fault Refusal :=
  onInstance s fun i => s.respond .ok i.gain

/-- RDSR (R136): one entry of the shift register, or BAD_INDEX. -/
def execRdsr (idx : Nat) (s : State) : Host.Outcome State Fault Refusal :=
  onInstance s fun i => s.answerRead (i.memRead .sr idx)

/-- RDCFG (R138): one configuration register, or BAD_INDEX. -/
def execRdcfg (idx : Nat) (s : State) : Host.Outcome State Fault Refusal :=
  onInstance s fun i => s.answerRead (i.memRead .cfg idx)

end Sys2Proof.Machine
end

