-- ==== Sys2Proof/Machine/Design.lean ====
section
/-! DEFINITION. The design phase (`spec/40_design.md`): validation, angles, tap synthesis, gain, and CONSTRUCT, which
does them all. The formulas are written over any numerics record, so that instance B64 (the hardware) and instance REAL
(the source's formulas) are the same text (R10, R16). -/

namespace Sys2Proof.Machine

section Formulas
variable {F : Type}

/-! ## Validation (R81 to R88): the first check that fails is reported (R152) -/

/-- Checks 1 to 8, in order, on kind number `kind`, tap count `n` and the three frequencies; the recognised kind when
all of them pass. -/
def validate (num : Num F) (kind : Nat) (n : Int) (fs f0 f1 : F) : Except Constraint FilterKind :=
  let half := num.fdiv fs num.two
  let hasF1 := num.fne f1 num.zero
  if !num.fgt fs num.zero then .error .fsPositive
  else if hasF1 && !num.flt f0 f1 then .error .bandOrdered
  else if !num.fgt f0 num.zero then .error .f0Positive
  else if !num.flt f0 half then .error .f0BelowNyquist
  else if hasF1 && !num.fgt f1 num.zero then .error .f1Positive
  else if hasF1 && !num.flt f1 half then .error .f1BelowNyquist
  else if ¬(0 < n ∧ n ≤ Config.maxTaps) then .error .numTapsInRange
  else match kindOfNumber kind with
    | none => .error .kindRecognised
    | some k => .ok k

/-! ## Angles and offset (R89, R91) -/

/-- The angle of frequency `f` at sampling rate `fs`: `lambda` for `f0`, `phi` for `f1` (R89). -/
def angle (num : Num F) (f fs : F) : F := num.fdiv (num.fmul num.pi f) (num.fdiv fs num.two)

/-- `mm(n, N)`, the tap-centred offset, with a division of F (R91). -/
def mm (num : Num F) (n N : Nat) : F := num.fsub (num.ofInt n) (num.fdiv (num.ofInt ((N : Int) - 1)) num.two)

/-! ## The three kernels, at offset `m` (R93 to R96) -/

/-- LowPass (R93). -/
def kernelLP (num : Num F) (m lambda : F) : F :=
  if num.feq m num.zero then num.fdiv lambda num.pi
  else num.fdiv (num.fsin (num.fmul m lambda)) (num.fmul m num.pi)

/-- HighPass (R94). -/
def kernelHP (num : Num F) (m lambda : F) : F :=
  if num.feq m num.zero then num.fsub num.one (num.fdiv lambda num.pi)
  else num.fneg (num.fdiv (num.fsin (num.fmul m lambda)) (num.fmul m num.pi))

/-- BandPass (R95). -/
def kernelBP (num : Num F) (m lambda phi : F) : F :=
  if num.feq m num.zero then num.fdiv (num.fsub phi lambda) num.pi
  else num.fdiv (num.fsub (num.fsin (num.fmul m phi)) (num.fsin (num.fmul m lambda))) (num.fmul m num.pi)

/-- `tap(kind, n, N, lambda, phi)`: the kernel of the kind (R92) at the offset of tap `n`. -/
def tap (num : Num F) (kind : FilterKind) (n N : Nat) (lambda phi : F) : F :=
  match kind with
  | .lowPass => kernelLP num (mm num n N) lambda
  | .highPass => kernelHP num (mm num n N) lambda
  | .bandPass => kernelBP num (mm num n N) lambda phi

/-- All taps (R97). Tap `n` is computed with record `numAt n`; the records differ only in the draw of a NaN result. -/
def tapVector (numAt : Nat → Num F) (kind : FilterKind) (N : Nat) (lambda phi : F) : List F :=
  (List.range N).map fun n => tap (numAt n) kind n N lambda phi

/-- The gain (R98): the taps added in index order to an accumulator that starts at `ZERO`. -/
def gainSum (num : Num F) (taps : List F) : F := taps.foldl num.fadd num.zero

end Formulas

/-! ## CONSTRUCT (R80) -/

/-- The number of results of one CONSTRUCT that may be NaN draws: the angles, the taps and the gain. -/
def constructDraws (N : Nat) : Nat := N + 3

/-- The instance that a valid record of kind `kind` yields, in its reset state (R80, R99). Result `k` in the order
lambda, phi, taps, gain takes draw `d + k` (log entry 1). -/
def buildInstance (r : Record) (kind : FilterKind) (d : Nat) : Instance :=
  let N := r.numTaps.toInt.toNat
  let lambda := angle (b64Draw d) r.f0 r.fs
  let phi := angle (b64Draw (d + 1)) r.f1 r.fs
  let taps := tapVector (fun n => b64Draw (d + 2 + n)) kind N lambda phi
  { kind := r.kind
    numTaps := r.numTaps
    fs := r.fs
    f0 := r.f0
    f1 := r.f1
    lambda := lambda
    phi := phi
    gain := gainSum (b64Draw (d + 2 + N)) taps
    normalize := r.normalize
    taps := taps
    sr := zeroSr N }

/-- Validation of a construction record under B64 (R80). -/
def validateRecord (r : Record) (d : Nat) : Except Constraint FilterKind :=
  validate (b64Draw d) (kindOperand r) (tapCountOperand r) r.fs r.f0 r.f1

/-- CONSTRUCT (R80, R99, R153): an instance in its reset state, or `InvalidParameter` and no instance. It is not
repeated on an existing instance (R19, log entry 5). -/
def execConstruct (r : Record) (s : State) : Host.Outcome State Fault Refusal :=
  match s.inst with
  | some _ => .fault .instanceExists
  | none =>
    match validateRecord r s.draws with
    | .error c => .next (s.raiseInvalidParameter c)
    | .ok kind =>
      .next ((s.withInst (buildInstance r kind s.draws)).advanceDraws (constructDraws r.numTaps.toInt.toNat))

end Sys2Proof.Machine
end

