-- ==== Sys2Proof/Machine/Stream.lean ====
section
/-! DEFINITION. The streaming phase (`spec/41_stream.md`): multiplier array, accumulator pipeline, gain normaliser, and
PROCESS, which pushes a sample and runs them. -/

namespace Sys2Proof.Machine

section Formulas
variable {F : Type}

/-- The multiplier array (R112): lane `i` multiplies register entry `i` by tap `i`. -/
def products (num : Num F) (sr taps : List F) : List F := List.zipWith num.fmul sr taps

/-- The accumulator pipeline (R113): the products added in index order to an accumulator that starts at `ZERO`. -/
def accumulate (num : Num F) (ps : List F) : F := ps.foldl num.fadd num.zero

/-- `raw`: the convolution sum of one step (R112, R113). -/
def convolve (num : Num F) (sr taps : List F) : F := accumulate num (products num sr taps)

/-- The gain normaliser (R114): a true division when `NORMALIZE` is 1, nothing when it is 0. -/
def normalise (num : Num F) (normalize : BitVec 1) (raw gain : F) : F :=
  if normalize = 1 then num.fdiv raw gain else raw

end Formulas

/-- The value PROCESS returns on a register that already holds the new sample (R110). -/
def outputValue (num : Num Word) (i : Instance) (sr : List Word) : Word :=
  normalise num i.normalize (convolve num sr i.taps) i.gain

/-- PROCESS (R110): push the sample, convolve, normalise, respond OK. Never an error (R115). Its result takes one draw
(log entry 1). -/
def execProcess (x : Word) (s : State) : Host.Outcome State Fault Refusal :=
  onInstance s fun i =>
    let sr := shiftIn i.N x i.sr
    ((s.withInst (i.writeSr sr)).advanceDraws 1).respond .ok (outputValue (b64Draw s.draws) i sr)

end Sys2Proof.Machine
end

