-- ==== Sys2Proof/Machine/System.lean ====
section
/-! DEFINITION. RESET (`spec/70_reset_and_hazards.md` R181) and the illegal operation codes
(`spec/60_exceptions.md` R157). -/

namespace Sys2Proof.Machine

/-- RESET (R181): zero-fills the shift register; taps, gain and every configuration register keep their values; no
response. -/
def execReset (s : State) : Host.Outcome State Fault Refusal :=
  onInstance s fun i => s.withInst (i.writeSr (zeroSr i.N))

/-- ILLEGAL_6_7 (R157): operation code 6 or 7 is answered ILLEGAL_OP and changes nothing; the code is not recorded. -/
def execIllegal67 (_op : BitVec 4) (s : State) : Host.Outcome State Fault Refusal :=
  onInstance s fun _ => s.illegalOp

/-- ILLEGAL_8_F (R157): operation codes 8 to 15, the same. -/
def execIllegal8F (_op : BitVec 4) (s : State) : Host.Outcome State Fault Refusal :=
  onInstance s fun _ => s.illegalOp

end Sys2Proof.Machine
end

