-- ==== Sys2Proof/Machine/Dispatch.lean ====
section
/-! DEFINITION. The meaning of each operation: one arm per constructor of `Instr`, each a call of its meaning. -/

namespace Sys2Proof.Machine

def exec (i : Instr) (s : State) : Host.Outcome State Fault Refusal :=
  match i with
  | .construct record => Sys2Proof.Machine.execConstruct record s
  | .reset => Sys2Proof.Machine.execReset s
  | .nop => Sys2Proof.Machine.execNop s
  | .process sample => Sys2Proof.Machine.execProcess sample s
  | .rdtap idx => Sys2Proof.Machine.execRdtap idx s
  | .rdgain => Sys2Proof.Machine.execRdgain s
  | .rdsr idx => Sys2Proof.Machine.execRdsr idx s
  | .rdcfg idx => Sys2Proof.Machine.execRdcfg idx s
  | .illegal67 op => Sys2Proof.Machine.execIllegal67 op s
  | .illegal8F op => Sys2Proof.Machine.execIllegal8F op s

end Sys2Proof.Machine
end

