-- ==== Sys2Proof/Decode.lean ====
section
/-! DEFINITION. Decoding, a total function of what reaches the machine (`spec/30_encoding.md` R69), and the encoder
written from the same tables (R62, R63, R66, R67). -/

namespace Sys2Proof

/-! ## The fields (R62, R66) -/

/-- `OP`, bits 67..64 of a command word. -/
def opField (w : CommandWord) : BitVec 4 := w.extractLsb' 64 4

/-- `ARG`, bits 63..0 of a command word. -/
def argField (w : CommandWord) : Word := w.extractLsb' 0 64

/-- The fields of a construction record word (R66). -/
def recordFields (r : RecordWord) : Record where
  normalize := r.extractLsb' 232 1
  kind := r.extractLsb' 224 8
  numTaps := r.extractLsb' 192 32
  fs := r.extractLsb' 128 64
  f0 := r.extractLsb' 64 64
  f1 := r.extractLsb' 0 64

/-! ## Decoding -/

/-- Decoding of a command word (R63, R69): total on all `2^68` words. -/
def decodeCommand (w : CommandWord) : Instr :=
  match (opField w).toNat with
  | 0 => .nop
  | 1 => .process (argField w)
  | 2 => .rdtap (argField w).toNat
  | 3 => .rdgain
  | 4 => .rdsr (argField w).toNat
  | 5 => .rdcfg (argField w).toNat
  | 6 => .illegal67 (opField w)
  | 7 => .illegal67 (opField w)
  | _ => .illegal8F (opField w)

/-- Decoding of any carrier. -/
def decode : Encoded → Except DecodeError Instr
  | .record r => .ok (.construct (recordFields r))
  | .pin rst => if rst = 1 then .ok .reset else .error .pinLow
  | .command w => .ok (decodeCommand w)

/-! ## Encoding -/

/-- A command word from its two fields (R62). -/
def commandWord (op : BitVec 4) (arg : Word) : CommandWord := op ++ arg

/-- A construction record word from its fields (R66). -/
def recordWord (r : Record) : RecordWord :=
  r.normalize ++ (r.kind ++ (r.numTaps ++ (r.fs ++ (r.f0 ++ r.f1))))

/-- The carrier of an instruction. The assembler writes 0 in an ignored `ARG` (R71). -/
def encode : Instr → Encoded
  | .construct r => .record (recordWord r)
  | .reset => .pin 1
  | .nop => .command (commandWord 0 0)
  | .process x => .command (commandWord 1 x)
  | .rdtap idx => .command (commandWord 2 (BitVec.ofNat 64 idx))
  | .rdgain => .command (commandWord 3 0)
  | .rdsr idx => .command (commandWord 4 (BitVec.ofNat 64 idx))
  | .rdcfg idx => .command (commandWord 5 (BitVec.ofNat 64 idx))
  | .illegal67 op => .command (commandWord op 0)
  | .illegal8F op => .command (commandWord op 0)

/-! ## The numbering of `spec/opcode_table.json` -/

/-- The carrier whose bits are the number `w`, of the format with `nbits` bits in whole bytes: 8 for the pin (1 bit),
72 for a command word (68 bits), 240 for a construction record (233 bits). A bit beyond the format's width has no
wire. Log entry 11. -/
def carrierOf (nbits w : Nat) : Except DecodeError Encoded :=
  if nbits ≤ 8 then
    (if w < 2 ^ 1 then .ok (.pin (BitVec.ofNat 1 w)) else .error .beyondWidth)
  else if nbits ≤ 72 then
    (if w < 2 ^ 68 then .ok (.command (BitVec.ofNat 68 w)) else .error .beyondWidth)
  else
    (if w < 2 ^ 233 then .ok (.record (BitVec.ofNat 233 w)) else .error .beyondWidth)

/-- The instruction read from the table's numbering of bits. -/
def decodeTableWord (nbits w : Nat) : Option Instr :=
  match carrierOf nbits w with
  | .error _ => none
  | .ok e =>
    match decode e with
    | .error _ => none
    | .ok i => some i

end Sys2Proof
end

