-- ==== Sys2Proof/Machine/Fetch.lean ====
section
/-! DEFINITION. From the host's next act to an operation (`spec/30_encoding.md` R61, R67; `spec/60_exceptions.md` R162).
There is no program counter and no stored program (`spec/10_state.md` R26): the sequence of steps is the sequence in
which the host acts. -/

namespace Sys2Proof.Machine

/-- What one act of the host carries to the machine. When `rst` is 1 RESET happens and no command is accepted on that
edge (R162); an edge with neither carries nothing. -/
def HostInput.carried : HostInput → Option Encoded
  | .elaborate r => some (.record r)
  | .edge rst cmd =>
    if rst = 1 then some (.pin 1)
    else match cmd with
      | none => none
      | some w => some (.command w)

/-- The operation that one act of the host starts, if any. -/
def HostInput.operation (h : HostInput) : Option Instr :=
  match h.carried with
  | none => none
  | some e =>
    match decode e with
    | .error _ => none
    | .ok i => some i

/-- The act of the host that presents a carrier. -/
def inputOf : Encoded → HostInput
  | .record r => .elaborate r
  | .pin rst => .edge rst none
  | .command w => .edge 0 (some w)

end Sys2Proof.Machine
end

