-- ==== Sys2Proof/Machine/Step.lean ====
section
/-! DEFINITION. One step of the machine (`spec/00_scope.md` R18): the next act of the host is taken and its operation is
executed completely. An act without an operation, or no act at all, finds the engine idle and leaves it so
(`spec/60_exceptions.md` R174). -/

namespace Sys2Proof.Machine

/-- The state with the host's next act taken. -/
def State.takeInput (s : State) : State := { s with inputs := s.inputs.tail }

/-- One step. -/
def step (s : State) : Host.Outcome State Fault Refusal :=
  match s.inputs with
  | [] => .next s
  | h :: _ =>
    match h.operation with
    | none => .next s.takeInput
    | some i => exec i s.takeInput

/-- The instance that `withFetchWord` puts in place where a command or a RESET is to run and there is none: the smallest
one of the spec's vectors, LowPass, N=1, Fs=4, f0=1, normalize=1 (`spec/95_test_vectors.md` T2). Log entry 4. -/
def benchInstance : Instance where
  kind := 0
  numTaps := 1
  fs := 0x4010000000000000#64
  f0 := 0x3FF0000000000000#64
  f1 := 0x0000000000000000#64
  lambda := 0x3FF921FB54442D18#64
  phi := 0x0000000000000000#64
  gain := 0x3FE0000000000000#64
  normalize := 1
  taps := [0x3FE0000000000000#64]
  sr := [0x0000000000000000#64]

/-- The state with an instance for a carrier to reach: a record needs none, a command and the pin need one. -/
def State.withPort (s : State) : Encoded → State
  | .record _ => s
  | .pin _ => { s with inst := some (s.inst.getD benchInstance) }
  | .command _ => { s with inst := some (s.inst.getD benchInstance) }

/-- `s` with the instruction whose bits are `w`, numbered as `spec/opcode_table.json` numbers them, as the host's next
act, so that the very next step runs it. Log entry 4. -/
def State.withFetchWord (s : State) (nbits w : Nat) : State :=
  match carrierOf nbits w with
  | .error _ => s
  | .ok e => { s.withPort e with inputs := inputOf e :: s.inputs }

end Sys2Proof.Machine
end

