-- ==== Sys2Proof/Machine/Real.lean ====
section
/-! DEFINITION. Instance REAL of the numerics record (`spec/00_scope.md` R10): the real numbers with the exact
operations, under which the rules are exactly the source's formulas; and the real value of a finite B64 word, with the
spacing of binary64 values at a real number, in which R15 speaks of the accuracy of the sine. No step of the machine
uses this file: a statement about the formulas does. `fdiv(a, ZERO)` has no value in the spec, and Lean's quotient there
is 0: a statement carries the premise that the divisor is not zero (log entry 13). -/

namespace Sys2Proof.Machine

/-- Instance REAL (R10). -/
noncomputable def real : Num ℝ where
  zero := 0
  one := 1
  two := 2
  pi := Real.pi
  ofInt := fun k => k
  fadd := fun a b => a + b
  fsub := fun a b => a - b
  fmul := fun a b => a * b
  fdiv := fun a b => a / b
  fneg := fun a => -a
  fsin := Real.sin
  flt := fun a b => decide (a < b)
  fgt := fun a b => decide (a > b)
  feq := fun a b => decide (a = b)
  fne := fun a b => decide (a ≠ b)

/-- The real value of a finite word. -/
noncomputable def B64.toReal (w : Word) : ℝ := (B64.toRat w : ℝ)

/-- `ulp(y)` of R15 (S3): the spacing of binary64 values at the magnitude of `y`. -/
noncomputable def B64.ulpReal (y : ℝ) : ℝ :=
  ((2 ^ B64.ulpExp ⌊|y| * (B64.unitsInOne : ℝ)⌋.toNat : ℕ) : ℝ) / (B64.unitsInOne : ℝ)

end Sys2Proof.Machine
end

