-- ==== Sys2Proof/WellFormed.lean ====
section
/-! DEFINITION. The instructions that an encoding exists for: an index is the unsigned value of a 64-bit field
(`spec/30_encoding.md` R65(b)), and an illegal operation code stands in the row of the opcode map that it belongs to
(R63, R68). -/

namespace Sys2Proof

/-- `idx` is a value of the whole 64-bit field `ARG` (R65(b)). -/
def indexFits (idx : Nat) : Bool := decide (idx < 2 ^ 64)

/-- The instruction is one that a carrier can hold. -/
def Instr.wellFormed : Instr → Bool
  | .construct _ => true
  | .reset => true
  | .nop => true
  | .process _ => true
  | .rdtap idx => indexFits idx
  | .rdgain => true
  | .rdsr idx => indexFits idx
  | .rdcfg idx => indexFits idx
  | .illegal67 op => op == 6 || op == 7
  | .illegal8F op => decide (8 ≤ op.toNat)

end Sys2Proof
end

