-- ==== Sys2Proof/Safety.lean ====
section
/-! DEFINITION. The terms in which claims about FIRFILT are made: runs of instructions and the pseudo-operations
(`spec/30_encoding.md` R72), the constraints of validation (`spec/60_exceptions.md` R150), the invariant of a
constructed instance (`spec/10_state.md` R23, R24), correct rounding (`spec/00_scope.md` R12), and what of a run reaches
the shift register (`spec/10_state.md` R30). -/

namespace Sys2Proof.Machine

/-! ## Runs -/

/-- The instructions of a list, executed one after the other; the first stop ends the run. -/
def runInstrs : List Instr → State → Host.Outcome State Fault Refusal
  | [], s => .next s
  | i :: is, s =>
    match exec i s with
    | .next t => runInstrs is t
    | .fault f => .fault f
    | .refused r => .refused r

/-- FEED (R72). -/
def feed (xs : List Word) : List Instr := xs.map .process

/-- IMPULSE (R72): one `1.0` and then `N-1` times `0.0`. -/
def impulse (n : Nat) : List Instr := feed (B64.one :: List.replicate (n - 1) B64.zero)

/-- TAPS (R72). -/
def tapsProgram (n : Nat) : List Instr := (List.range n).map .rdtap

/-- DESCRIBE (R72, R143), in the field order that the source gives. -/
def describe (n : Nat) : List Instr :=
  [.rdcfg 0, .rdcfg 2, .rdcfg 3, .rdcfg 4, .rdgain, .rdcfg 1] ++ tapsProgram n ++ (List.range n).map .rdsr

/-- A CONSTRUCT. -/
def isConstruct : Instr → Bool
  | .construct _ => true
  | _ => false

/-- A PROCESS. -/
def isProcess : Instr → Bool
  | .process _ => true
  | _ => false

/-- An operation that may write the shift register (R21). -/
def writesSr : Instr → Bool
  | .process _ => true
  | .reset => true
  | _ => false

/-- The samples of the PROCESS operations since the last RESET, in order, after those of `acc`. -/
def samplesSinceReset : List Instr → List Word → List Word
  | [], acc => acc
  | .process x :: is, acc => samplesSinceReset is (acc ++ [x])
  | .reset :: is, _ => samplesSinceReset is []
  | _ :: is, acc => samplesSinceReset is acc

/-- What the host receives from the PROCESS operations of a run. -/
def processResponses : List Instr → State → List HostOutput
  | [], _ => []
  | i :: is, s =>
    match exec i s with
    | .next t => (if isProcess i then t.outputs.drop s.outputs.length else []) ++ processResponses is t
    | .fault _ => []
    | .refused _ => []

/-! ## Validation -/

/-- The constraints of the table of R150, on kind number `kind`, tap count `n` and the three frequencies. -/
def Satisfied {F : Type} (num : Num F) (kind : Nat) (n : Int) (fs f0 f1 : F) : Constraint → Prop
  | .fsPositive => num.fgt fs num.zero = true
  | .bandOrdered => num.fne f1 num.zero = true → num.flt f0 f1 = true
  | .f0Positive => num.fgt f0 num.zero = true
  | .f0BelowNyquist => num.flt f0 (num.fdiv fs num.two) = true
  | .f1Positive => num.fne f1 num.zero = true → num.fgt f1 num.zero = true
  | .f1BelowNyquist => num.fne f1 num.zero = true → num.flt f1 (num.fdiv fs num.two) = true
  | .numTapsInRange => 0 < n ∧ n ≤ 1000
  | .kindRecognised => kind = 0 ∨ kind = 1 ∨ kind = 2

/-- `c` is the first constraint that is violated, in the order of the checks (R152). -/
def FirstViolated {F : Type} (num : Num F) (kind : Nat) (n : Int) (fs f0 f1 : F) (c : Constraint) : Prop :=
  ¬Satisfied num kind n fs f0 f1 c ∧
    ∀ c', constraintCode c' < constraintCode c → Satisfied num kind n fs f0 f1 c'

/-! ## The invariant of a constructed instance -/

/-- The constants of the instance are the design of its own parameters (R23 to R25, R89 to R98), each NaN among them
some quiet NaN, and the shift register has its size (R20). It is what CONSTRUCT establishes and every step keeps. -/
def Instance.Designed (i : Instance) : Prop :=
  ∃ (kind : FilterKind) (q : Nat → Word), (∀ k, B64.isQuietNaN (q k) = true) ∧
    validate (b64 (q 0)) i.kind.toNat i.numTaps.toInt i.fs i.f0 i.f1 = .ok kind ∧
    i.lambda = angle (b64 (q 0)) i.f0 i.fs ∧
    i.phi = angle (b64 (q 1)) i.f1 i.fs ∧
    i.taps = tapVector (fun n => b64 (q (2 + n))) kind i.N i.lambda i.phi ∧
    i.gain = gainSum (b64 (q (2 + i.N))) i.taps ∧
    i.sr.length = i.N

/-- Every instance in the state is a designed one. -/
def State.Designed (s : State) : Prop := ∀ i, s.inst = some i → i.Designed

/-! ## B64 values -/

/-- Magnitudes from here on round to an infinity: half a unit in the last place above the largest finite value. -/
def B64.overflowBound : ℚ := 2 ^ 1024 - 2 ^ 970

/-- `r` is the exact value `v`, `v ≠ 0`, rounded to nearest, ties to even, with overflow to a signed infinity
(R12). -/
def B64.RoundsTo (v : ℚ) (r : Word) : Prop :=
  (|v| < B64.overflowBound →
    B64.isFinite r = true ∧
    (∀ c, B64.isFinite c = true → |B64.toRat r - v| ≤ |B64.toRat c - v|) ∧
    (∀ c, B64.isFinite c = true → |B64.toRat c - v| = |B64.toRat r - v| → B64.toRat c ≠ B64.toRat r →
      r.getLsbD 0 = false)) ∧
  (B64.overflowBound ≤ |v| → B64.isInf r = true) ∧
  (B64.sign r = true ↔ v < 0)

/-- Equal values, or both a NaN. -/
def B64.SameValue (a b : Word) : Prop := B64.feq a b = true ∨ (B64.isNaN a = true ∧ B64.isNaN b = true)

/-- The same word, or both a NaN: what may be claimed of two results of one computation
(`spec/93_implementation_defined.md` I3). -/
def B64.SameResult (a b : Word) : Prop := a = b ∨ (B64.isNaN a = true ∧ B64.isNaN b = true)

/-- The same thing received: responses of one status with the same result, or the same report. -/
def HostOutput.SameResult : HostOutput → HostOutput → Prop
  | .response r, .response r' => statusField r = statusField r' ∧ B64.SameResult (dataField r) (dataField r')
  | .invalidParameter c, .invalidParameter c' => c = c'
  | .response _, .invalidParameter _ => False
  | .invalidParameter _, .response _ => False

/-! ## Streams over any numerics record -/

/-- The raw outputs of a stream of samples, from shift register `sr`, with `n` entries. -/
def rawOutputs {F : Type} (num : Num F) (n : Nat) (taps : List F) : List F → List F → List F
  | _, [] => []
  | sr, x :: xs => convolve num ((x :: sr).take n) taps :: rawOutputs num n taps ((x :: sr).take n) xs

end Sys2Proof.Machine
end

