-- ==== Sys2Proof/Certificates/Slice0/Obligations.lean ====
section
/-! DEFINITION. The statements for the provers, in the order of the machine: decoding and steps, construction,
streaming, accessors and errors, reset, invariants, arithmetic. `OBLIGATIONS.json` lists them with the rules they cite. -/

open Sys2Proof Sys2Proof.Machine

/-! ## Decoding and encoding (`spec/30_encoding.md`) -/

/-- Decode after encode is the identity on every well-formed instruction, all operands at all values. -/
def Obligations.DecodeEncodeRoundTrip : Prop :=
  ∀ i : Instr, i.wellFormed = true → decode (encode i) = .ok i

/-- R69: the operation of every command word, by its `OP` and `ARG` fields; the ignored `ARG` of NOP and RDGAIN does
not matter. -/
def Obligations.CommandDecodingFollowsOpcodeMap : Prop :=
  (∀ (op : BitVec 4) (arg : Word), decode (.command (op ++ arg)) = .ok (
    if op = 0 then .nop else if op = 1 then .process arg else if op = 2 then .rdtap arg.toNat
    else if op = 3 then .rdgain else if op = 4 then .rdsr arg.toNat else if op = 5 then .rdcfg arg.toNat
    else if op = 6 ∨ op = 7 then .illegal67 op else .illegal8F op)) ∧
  (∀ w w' : CommandWord, w.extractLsb' 64 4 = w'.extractLsb' 64 4 →
    (w.extractLsb' 64 4 = 0 ∨ w.extractLsb' 64 4 = 3) → decode (.command w) = decode (.command w'))

/-- Encoding what a command word decodes to gives the word back, with an ignored `ARG` written as 0. -/
def Obligations.EncodeOfDecodedCommand : Prop :=
  ∀ (op : BitVec 4) (arg : Word), encode (decodeCommand (op ++ arg)) =
    .command (op ++ (if op = 1 ∨ op = 2 ∨ op = 4 ∨ op = 5 then arg else 0#64))

/-- Every 233-bit word is the record word of exactly one record, whose fields stand at the bits that R66 gives. -/
def Obligations.RecordFieldsStandAtTheirBits : Prop :=
  (∀ r : Record, decode (.record (recordWord r)) = .ok (.construct r) ∧
    (recordWord r).toNat = r.normalize.toNat * 2 ^ 232 + r.kind.toNat * 2 ^ 224 + r.numTaps.toNat * 2 ^ 192 +
      r.fs.toNat * 2 ^ 128 + r.f0.toNat * 2 ^ 64 + r.f1.toNat) ∧
  (∀ w : RecordWord, recordWord (recordFields w) = w)

/-- One word for each row of the opcode table, from `spec/95_test_vectors.md` (the record T10b of section 2.2, the junk
NOP of 2.4, the illegal words of 2.5, the rest of the command words of 2.7) and, for RESET, `rst = 1` of R67. That 8, 72
and 240 bits stand for the pin, a command word and a record is the model's choice (log entry 11). -/
def Obligations.SpecWordsDecode : Prop :=
  decodeTableWord 72 0x13FF0000000000000 = some (.process 0x3FF0000000000000#64) ∧
  decodeTableWord 72 0x0DEADBEEF00000001 = some .nop ∧
  decodeTableWord 72 0x24000000000000000 = some (.rdtap 4611686018427387904) ∧
  decodeTableWord 72 0x3123456789ABCDEF0 = some .rdgain ∧
  decodeTableWord 72 0x40000000000000002 = some (.rdsr 2) ∧
  decodeTableWord 72 0x50000000000000007 = some (.rdcfg 7) ∧
  decodeTableWord 72 0x73FF0000000000000 = some (.illegal67 7) ∧
  decodeTableWord 72 0xFFFFFFFFFFFFFFFFF = some (.illegal8F 15) ∧
  decodeTableWord 8 1 = some .reset ∧
  decodeTableWord 240 0x10200000005408F40000000000040590000000000004069000000000000 =
    some (.construct ⟨1, 2, 5, 0x408F400000000000#64, 0x4059000000000000#64, 0x4069000000000000#64⟩)

/-! ## Steps -/

/-- When the host's next act carries what decodes to an instruction, the step is that instruction's meaning, on the
state with the act taken. -/
def Obligations.StepExecutesDecodedInstruction : Prop :=
  ∀ (e : Encoded) (i : Instr) (s : State) (rest : List HostInput),
    decode e = .ok i → s.inputs = inputOf e :: rest → step s = exec i { s with inputs := rest }

/-- R162, R67: on an edge with `rst = 1` RESET happens and the command offered on it, if any, is not accepted. -/
def Obligations.ResetPinWinsOverCommand : Prop :=
  ∀ (s : State) (cmd : Option CommandWord) (rest : List HostInput),
    s.inputs = .edge 1 cmd :: rest → step s = exec .reset { s with inputs := rest }

/-- Without a command and without `rst` the engine is idle: nothing but the host's act is consumed. -/
def Obligations.IdleEngineKeepsItsState : Prop :=
  (∀ (s : State) (rest : List HostInput), s.inputs = .edge 0 none :: rest →
    step s = .next { s with inputs := rest }) ∧
  (∀ s : State, s.inputs = [] → step s = .next s)

/-- The machine stops in exactly two cases, both of which the spec says do not arise, and never refuses. The two
faults are the model's choice (log entries 5 and 6). -/
def Obligations.StopsAreExactlyTheImpossibleCases : Prop :=
  ∀ (i : Instr) (s : State),
    (exec i s = .fault .instanceExists ↔ isConstruct i = true ∧ s.inst.isSome = true) ∧
    (exec i s = .fault .noInstance ↔ isConstruct i = false ∧ s.inst = none) ∧
    ∀ r, exec i s ≠ .refused r

/-! ## Construction (`spec/40_design.md`) -/

/-- R152: validation reports the first violated constraint in the order of the checks, and passes exactly when none is
violated; for every numerics record. -/
def Obligations.ValidationReportsFirstViolation : Prop :=
  ∀ (F : Type) (num : Num F) (kind : Nat) (n : Int) (fs f0 f1 : F),
    (∀ c, validate num kind n fs f0 f1 = .error c ↔ FirstViolated num kind n fs f0 f1 c) ∧
    (∀ k, validate num kind n fs f0 f1 = .ok k ↔
      (∀ c, Satisfied num kind n fs f0 f1 c) ∧ kindOfNumber kind = some k)

/-- R85: check 5 stands in its place, and under B64 it is never the first to fail, so code 5 is never reported. -/
def Obligations.CodeFiveIsNeverReported : Prop :=
  (∀ (F : Type) (num : Num F) (kind : Nat) (n : Int) (fs f0 f1 : F),
    num.fgt fs num.zero = true → num.flt f0 f1 = true → num.fgt f0 num.zero = true →
      num.flt f0 (num.fdiv fs num.two) = true → num.fne f1 num.zero = true → num.fgt f1 num.zero = false →
      validate num kind n fs f0 f1 = .error .f1Positive) ∧
  (∀ (q : Word) (kind : Nat) (n : Int) (fs f0 f1 : Word),
    validate (b64 q) kind n fs f0 f1 ≠ .error .f1Positive)

/-- R99: a record that satisfies the eight constraints always yields an instance, with the parameters as given, the
designed constants and a zero-filled register; a record that does not leaves no instance and reports the first violated
constraint to the caller (R150, R152, R153, R155). That the failure is a next state whose only trace is the report in the
outputs is the model's form of it (log entry 10). The constraints have the code numbers of R150. -/
def Obligations.ConstructCompletes : Prop :=
  (constraintCode .fsPositive = 1 ∧ constraintCode .bandOrdered = 2 ∧ constraintCode .f0Positive = 3 ∧
    constraintCode .f0BelowNyquist = 4 ∧ constraintCode .f1Positive = 5 ∧ constraintCode .f1BelowNyquist = 6 ∧
    constraintCode .numTapsInRange = 7 ∧ constraintCode .kindRecognised = 8) ∧
  ∀ (q : Word) (r : Record) (s : State), s.inst = none →
    ((∀ c, Satisfied (b64 q) r.kind.toNat r.numTaps.toInt r.fs r.f0 r.f1 c) →
      ∃ (i : Instance) (d : Nat), exec (.construct r) s = .next { s with inst := some i, draws := d } ∧
        i.kind = r.kind ∧ i.numTaps = r.numTaps ∧ i.fs = r.fs ∧ i.f0 = r.f0 ∧ i.f1 = r.f1 ∧
        i.normalize = r.normalize ∧ i.Designed ∧ i.sr = List.replicate i.N 0#64) ∧
    (∀ c, FirstViolated (b64 q) r.kind.toNat r.numTaps.toInt r.fs r.f0 r.f1 c →
      exec (.construct r) s = .next { s with outputs := s.outputs ++ [.invalidParameter c] })

/-- R91: every offset is exact under B64, `n - (N-1)/2` in the rationals; the offset of the mirror tap is the negated
value; and the offset is positive zero exactly at the centre of an odd `N`. -/
def Obligations.OffsetsAreExact : Prop :=
  ∀ (q : Word) (n N : Nat), N ≤ 1000 → n < N →
    B64.isFinite (mm (b64 q) n N) = true ∧
    B64.toRat (mm (b64 q) n N) = (n : ℚ) - ((N : ℚ) - 1) / 2 ∧
    B64.toRat (mm (b64 q) (N - 1 - n) N) = B64.toRat (B64.fneg (mm (b64 q) n N)) ∧
    (mm (b64 q) n N = 0#64 ↔ 2 * n + 1 = N)

/-- R96: the zero-offset branch is taken at the centre of an odd `N` and nowhere else, and no other tap divides by a
zero. -/
def Obligations.ZeroOffsetBranchOnlyAtCentre : Prop :=
  ∀ (q : Word) (n N : Nat), N ≤ 1000 → n < N →
    (B64.feq (mm (b64 q) n N) B64.zero = true ↔ 2 * n + 1 = N) ∧
    (2 * n + 1 ≠ N → B64.isZero (B64.fmul q (mm (b64 q) n N) B64.pi) = false)

/-- R101: the centre tap of each kind is its analytic limit, under B64 and, with the values of the frequencies, under
REAL. -/
def Obligations.CentreTapIsTheLimit : Prop :=
  (∀ (q : Word) (c : Nat) (lambda phi : Word), 2 * c + 1 ≤ 1000 →
    tap (b64 q) .lowPass c (2 * c + 1) lambda phi = B64.fdiv q lambda 0x400921FB54442D18#64 ∧
    tap (b64 q) .highPass c (2 * c + 1) lambda phi =
      B64.fsub q 0x3FF0000000000000#64 (B64.fdiv q lambda 0x400921FB54442D18#64) ∧
    tap (b64 q) .bandPass c (2 * c + 1) lambda phi =
      B64.fdiv q (B64.fsub q phi lambda) 0x400921FB54442D18#64) ∧
  (∀ (c : Nat) (fs f0 f1 : ℝ), fs ≠ 0 →
    tap real .lowPass c (2 * c + 1) (angle real f0 fs) (angle real f1 fs) = 2 * f0 / fs ∧
    tap real .highPass c (2 * c + 1) (angle real f0 fs) (angle real f1 fs) = 1 - 2 * f0 / fs ∧
    tap real .bandPass c (2 * c + 1) (angle real f0 fs) (angle real f1 fs) = 2 * (f1 - f0) / fs)

/-- R100 under B64, for all three kinds: a tap that is no NaN compares equal to its mirror image, whatever the draws
(log entry 14). The draw of the first is a NaN, as every draw of a run is. -/
def Obligations.TapsAreSymmetricUnderB64 : Prop :=
  ∀ (q q' : Word) (kind : FilterKind) (n N : Nat) (lambda phi : Word), N ≤ 1000 → n < N →
    B64.isNaN q = true → B64.isNaN (tap (b64 q) kind n N lambda phi) = false →
    B64.feq (tap (b64 q) kind n N lambda phi) (tap (b64 q') kind (N - 1 - n) N lambda phi) = true

/-- R100 under REAL: the taps of every design are exactly symmetric. -/
def Obligations.TapsAreSymmetricUnderReal : Prop :=
  ∀ (kind : FilterKind) (n N : Nat) (lambda phi : ℝ), n < N →
    tap real kind (N - 1 - n) N lambda phi = tap real kind n N lambda phi

/-- R103 under REAL: the gain of a HighPass design is one minus (odd `N`) or minus (even `N`) that of the LowPass design,
and the gain of a BandPass design is the difference of two LowPass gains. -/
def Obligations.GainsUnderReal : Prop :=
  ∀ (N : Nat) (lambda phi : ℝ),
    (N % 2 = 1 → gainSum real (tapVector (fun _ => real) .highPass N lambda phi) =
      1 - gainSum real (tapVector (fun _ => real) .lowPass N lambda phi)) ∧
    (N % 2 = 0 → gainSum real (tapVector (fun _ => real) .highPass N lambda phi) =
      -gainSum real (tapVector (fun _ => real) .lowPass N lambda phi)) ∧
    gainSum real (tapVector (fun _ => real) .bandPass N lambda phi) =
      gainSum real (tapVector (fun _ => real) .lowPass N phi phi) -
        gainSum real (tapVector (fun _ => real) .lowPass N lambda lambda)

/-- R104 under B64: a BandPass design with `phi = ZERO` has the negated LowPass taps, where they are no NaN (log entry
14). The draw is a NaN, as every draw of a run is. -/
def Obligations.BandPassWithoutUpperEdge : Prop :=
  ∀ (q : Word) (n N : Nat) (lambda : Word), N ≤ 1000 → n < N →
    B64.isNaN q = true → B64.isNaN (tap (b64 q) .lowPass n N lambda B64.zero) = false →
    B64.feq (tap (b64 q) .bandPass n N lambda B64.zero)
      (B64.fneg (tap (b64 q) .lowPass n N lambda B64.zero)) = true

/-- R105: an infinite sampling rate, with `PI` times each frequency within the format (log entry 14), gives angles
`ZERO`, taps that are zeros but for the `ONE` at the centre of a HighPass design, and the gain `ZERO`, or `ONE` for a
HighPass design of odd `N`. -/
def Obligations.InfiniteSamplingRateDesign : Prop :=
  ∀ (i : Instance), i.Designed → i.fs = 0x7FF0000000000000#64 →
    B64.isFinite (B64.fmul 0x7FF8000000000000#64 B64.pi i.f0) = true → B64.isFinite (B64.fmul 0x7FF8000000000000#64 B64.pi i.f1) = true →
    i.lambda = B64.zero ∧ B64.isZero i.phi = true ∧
    (∀ n t, i.taps[n]? = some t → (i.kind = 1 ∧ 2 * n + 1 = i.N → t = B64.one) ∧
      (¬(i.kind = 1 ∧ 2 * n + 1 = i.N) → B64.isZero t = true)) ∧
    i.gain = if i.kind = 1 ∧ i.N % 2 = 1 then B64.one else B64.zero

/-! ## Streaming (`spec/41_stream.md`) -/

/-- R110 to R114: what PROCESS does, element by element: its command word, the register after the push, the products
and their sum in index order from `ZERO`, the optional division, the response, and nothing else (the draw counter is
the model's own, and the statement says nothing of its value). -/
def Obligations.ProcessEffect : Prop :=
  ∀ (s : State) (i : Instance) (x : Word), s.inst = some i → i.wf = true →
    decode (.command (1#4 ++ x)) = .ok (.process x) ∧
    ∃ (sr : List Word) (y q : Word) (d : Nat),
      exec (.process x) s = .next { s with
        inst := some { i with sr := sr }
        draws := d
        outputs := s.outputs ++ [.response (responseWord .ok y)] } ∧
      sr.length = i.N ∧ sr[0]? = some x ∧ (∀ j, 1 ≤ j → j < i.N → sr[j]? = i.sr[j - 1]?) ∧
      B64.isQuietNaN q = true ∧
      y = (if i.normalize = 1 then
          B64.fdiv q ((List.range i.N).foldl
            (fun acc j => B64.fadd q acc (B64.fmul q (sr.getD j 0) (i.taps.getD j 0))) 0#64) i.gain
        else (List.range i.N).foldl
            (fun acc j => B64.fadd q acc (B64.fmul q (sr.getD j 0) (i.taps.getD j 0))) 0#64)

/-- R20: after `k` PROCESS operations from the reset state the register holds the last samples, the most recent first,
and `ZERO` where there was none yet. -/
def Obligations.RegisterHoldsLatestSamples : Prop :=
  ∀ (s : State) (i : Instance) (xs : List Word), s.inst = some i → i.wf = true →
    i.sr = List.replicate i.N B64.zero →
    ∃ (t : State) (sr : List Word), runInstrs (feed xs) s = .next t ∧ t.inst = some { i with sr := sr } ∧
      sr.length = i.N ∧
      (∀ j, j < min xs.length i.N → sr[j]? = xs[xs.length - 1 - j]?) ∧
      (∀ j, min xs.length i.N ≤ j → j < i.N → sr[j]? = some B64.zero)

/-- R30: after any run without a CONSTRUCT the register depends on the samples since the last RESET, in order, and on
nothing else, and the constants are untouched. -/
def Obligations.RegisterDependsOnSamplesSinceReset : Prop :=
  ∀ (s : State) (i : Instance) (prog : List Instr), s.inst = some i → i.wf = true →
    i.sr = List.replicate i.N B64.zero → (∀ op ∈ prog, isConstruct op = false) →
    ∃ t, runInstrs prog s = .next t ∧
      t.inst = some { i with
        sr := ((samplesSinceReset prog []).reverse ++ List.replicate i.N B64.zero).take i.N }

/-- R121: the impulse response is the tap vector, divided by the gain when `NORMALIZE` is 1; the step after it answers
`ZERO`, or its quotient by the gain, and leaves the register all zero. The premise that the taps are finite is the rule's own (log entry 14). -/
def Obligations.ImpulseResponseEqualsTaps : Prop :=
  ∀ (s : State) (i : Instance), s.inst = some i → i.wf = true → i.sr = List.replicate i.N B64.zero →
    (∀ t ∈ i.taps, B64.isFinite t = true) →
    ∃ (t : State) (ys : List Word), runInstrs (impulse i.N) s = .next t ∧
      t.outputs = s.outputs ++ ys.map (fun y => .response (responseWord .ok y)) ∧ ys.length = i.N ∧
      (∀ k, k < i.N → ∃ q, B64.isQuietNaN q = true ∧
        (B64.isZero (i.taps.getD k 0) = false → ys[k]? =
          some (if i.normalize = 1 then B64.fdiv q (i.taps.getD k 0) i.gain else i.taps.getD k 0)) ∧
        (B64.isZero (i.taps.getD k 0) = true → ys[k]? =
          some (if i.normalize = 1 then B64.fdiv q B64.zero i.gain else B64.zero))) ∧
      (∃ (u : State) (q : Word), exec (.process B64.zero) t = .next u ∧ u.inst = some i ∧ B64.isQuietNaN q = true ∧
        u.outputs = t.outputs ++ [.response (responseWord .ok
          (if i.normalize = 1 then B64.fdiv q B64.zero i.gain else B64.zero))])

/-- What has left the register is forgotten (R118, R185): two instances with the same constants and any two registers,
fed the same samples, agree in their registers and in their responses from the `N`-th sample on. Two NaN responses agree
whatever their bits (`spec/93_implementation_defined.md` I3), so nothing is said of the draws. -/
def Obligations.EvictedSamplesAreForgotten : Prop :=
  ∀ (s s' : State) (i : Instance) (sr' : List Word) (xs : List Word), s.inst = some i → i.wf = true →
    s'.inst = some { i with sr := sr' } → sr'.length = i.N → i.N ≤ xs.length →
    ∃ (t t' : State) (ys ys' : List Word),
      runInstrs (feed xs) s = .next t ∧ runInstrs (feed xs) s' = .next t' ∧ t.inst = t'.inst ∧
      t.outputs = s.outputs ++ ys.map (fun y => .response (responseWord .ok y)) ∧
      t'.outputs = s'.outputs ++ ys'.map (fun y => .response (responseWord .ok y)) ∧
      ys.length = xs.length ∧ ys'.length = xs.length ∧
      ∀ k, i.N - 1 ≤ k → k < xs.length → B64.SameResult (ys.getD k 0) (ys'.getD k 0)

/-- R118: while a NaN is in the register, every response of PROCESS carries a quiet NaN. -/
def Obligations.NaNInRegisterGivesNaN : Prop :=
  ∀ (s : State) (i : Instance) (x : Word), s.inst = some i → i.wf = true →
    (∃ w ∈ shiftIn i.N x i.sr, B64.isNaN w = true) →
    ∃ (t : State) (y : Word), exec (.process x) s = .next t ∧
      t.outputs = s.outputs ++ [.response (responseWord .ok y)] ∧ B64.isQuietNaN y = true

/-- R117: normalisation by a zero gain: infinity with the exclusive-or of the signs, or the drawn NaN. -/
def Obligations.NormalisationByZeroGain : Prop :=
  ∀ (q raw gain : Word), B64.isZero gain = true →
    ((B64.isNaN raw = true ∨ B64.isZero raw = true) → normalise (b64 q) 1 raw gain = q) ∧
    (B64.isNaN raw = false → B64.isZero raw = false →
      B64.isInf (normalise (b64 q) 1 raw gain) = true ∧
        B64.sign (normalise (b64 q) 1 raw gain) = (B64.sign raw ^^ B64.sign gain))

/-- R123 under B64: on a designed instance with a finite non-zero gain, a register of ones gives exactly `ONE` when
`NORMALIZE` is 1 and exactly the gain when it is 0. -/
def Obligations.OnesGiveUnityResponse : Prop :=
  ∀ (s : State) (i : Instance), s.inst = some i → i.Designed →
    shiftIn i.N B64.one i.sr = List.replicate i.N B64.one →
    B64.isFinite i.gain = true → B64.isZero i.gain = false →
    ∃ t, exec (.process B64.one) s = .next t ∧ t.outputs = s.outputs ++
      [.response (responseWord .ok (if i.normalize = 1 then B64.one else i.gain))]

/-- R120 under REAL: the `k`-th raw output of a stream from reset is the convolution of the taps with the samples. -/
def Obligations.ConvolutionUnderReal : Prop :=
  ∀ (taps xs : List ℝ) (k : Nat), k < xs.length →
    (rawOutputs real taps.length taps (List.replicate taps.length 0) xs)[k]? =
      some (∑ j ∈ Finset.range taps.length, taps.getD j 0 * (if j ≤ k then xs.getD (k - j) 0 else 0))

/-- R123 under REAL: a constant register gives the constant times the gain, and the constant itself when normalised by a
gain that is not zero. -/
def Obligations.ConstantInputUnderReal : Prop :=
  ∀ (taps : List ℝ) (c : ℝ),
    convolve real (List.replicate taps.length c) taps = c * gainSum real taps ∧
    (gainSum real taps ≠ 0 →
      normalise real 1 (convolve real (List.replicate taps.length c) taps) (gainSum real taps) = c)

/-- R188: with negated taps, as a HighPass design of even `N` has beside the LowPass design, normalisation by a gain that
is not zero gives the same outputs, but for the sign of a zero. -/
def Obligations.NegatedTapsNormaliseToTheSameOutputs : Prop :=
  (∀ (q : Word) (n N : Nat) (lambda phi : Word), N % 2 = 0 → N ≤ 1000 → n < N →
    tap (b64 q) .highPass n N lambda phi = B64.fneg (tap (b64 q) .lowPass n N lambda phi)) ∧
  (∀ (q : Word) (sr taps : List Word), B64.isNaN q = true → B64.isZero (gainSum (b64 q) taps) = false →
    B64.SameValue
      (normalise (b64 q) 1 (convolve (b64 q) sr (taps.map B64.fneg)) (gainSum (b64 q) (taps.map B64.fneg)))
      (normalise (b64 q) 1 (convolve (b64 q) sr taps) (gainSum (b64 q) taps)))

/-! ## Accessors and errors (`spec/42_access.md`, `spec/60_exceptions.md`) -/

/-- R130: RDTAP answers the tap below `N` and BAD_INDEX from `N` on, and changes nothing; its index is the whole `ARG`
as an unsigned number; and after any number of further steps the answer is still the same. -/
def Obligations.RdtapAnswers : Prop :=
  (∀ arg : Word, decode (.command (2#4 ++ arg)) = .ok (.rdtap arg.toNat)) ∧
  ∀ (s : State) (i : Instance) (idx : Nat), s.inst = some i → i.wf = true →
    exec (.rdtap idx) s = .next { s with outputs := s.outputs ++ [.response (
      if idx < i.N then responseWord .ok (i.taps.getD idx 0) else responseWord .badIndex 0)] } ∧
    ∀ (k : Nat) (t : State), core.run k s = .next t →
      exec (.rdtap idx) t = .next { t with outputs := t.outputs ++ [.response (
        if idx < i.N then responseWord .ok (i.taps.getD idx 0) else responseWord .badIndex 0)] }

/-- R134: RDGAIN, whatever its `ARG`, answers the gain, always OK, whatever `NORMALIZE` is, the same word as
`RDCFG 7`. -/
def Obligations.RdgainAnswers : Prop :=
  (∀ arg : Word, decode (.command (3#4 ++ arg)) = .ok .rdgain) ∧
  ∀ (s : State) (i : Instance), s.inst = some i →
    exec .rdgain s = .next { s with outputs := s.outputs ++ [.response (responseWord .ok i.gain)] } ∧
    exec (.rdcfg 7) s = exec .rdgain s

/-- R136: RDSR answers the register entry below `N` and BAD_INDEX from `N` on, and changes nothing; its index is the
whole `ARG` as an unsigned number. -/
def Obligations.RdsrAnswers : Prop :=
  (∀ arg : Word, decode (.command (4#4 ++ arg)) = .ok (.rdsr arg.toNat)) ∧
  ∀ (s : State) (i : Instance) (idx : Nat), s.inst = some i → i.wf = true →
    exec (.rdsr idx) s = .next { s with outputs := s.outputs ++ [.response (
      if idx < i.N then responseWord .ok (i.sr.getD idx 0) else responseWord .badIndex 0)] }

/-- R138 with the map of R25: RDCFG answers the configuration register, extended to 64 bits, and BAD_INDEX from 10
on, and changes nothing; and after any number of further steps the answer is still the same. -/
def Obligations.RdcfgAnswers : Prop :=
  (∀ arg : Word, decode (.command (5#4 ++ arg)) = .ok (.rdcfg arg.toNat)) ∧
  ∀ (s : State) (i : Instance) (idx : Nat), s.inst = some i →
    exec (.rdcfg idx) s = .next { s with outputs := s.outputs ++ [.response (
      if idx = 0 then responseWord .ok (i.kind.zeroExtend 64)
      else if idx = 1 then responseWord .ok (i.numTaps.signExtend 64)
      else if idx = 2 then responseWord .ok i.fs
      else if idx = 3 then responseWord .ok i.f0
      else if idx = 4 then responseWord .ok i.f1
      else if idx = 5 then responseWord .ok i.lambda
      else if idx = 6 then responseWord .ok i.phi
      else if idx = 7 then responseWord .ok i.gain
      else if idx = 8 then responseWord .ok (i.normalize.zeroExtend 64)
      else if idx = 9 then responseWord .ok 1000#64
      else responseWord .badIndex 0)] } ∧
    ∀ (k : Nat) (t : State) (r : HostOutput), core.run k s = .next t →
      exec (.rdcfg idx) s = .next { s with outputs := s.outputs ++ [r] } →
      exec (.rdcfg idx) t = .next { t with outputs := t.outputs ++ [r] }

/-- R140: NOP, whatever its `ARG`, answers OK 0 and changes nothing. -/
def Obligations.NopAnswers : Prop :=
  (∀ arg : Word, decode (.command (0#4 ++ arg)) = .ok .nop) ∧
  ∀ (s : State) (i : Instance), s.inst = some i →
    exec .nop s = .next { s with outputs := s.outputs ++ [.response (responseWord .ok 0)] }

/-- R157: an illegal operation code is answered ILLEGAL_OP with data 0 and changes nothing; the code is not recorded. -/
def Obligations.IllegalOpAnswers : Prop :=
  ∀ (s : State) (i : Instance) (op : BitVec 4), s.inst = some i →
    exec (.illegal67 op) s = .next { s with outputs := s.outputs ++ [.response (responseWord .illegalOp 0)] } ∧
    exec (.illegal8F op) s = .next { s with outputs := s.outputs ++ [.response (responseWord .illegalOp 0)] } ∧
    ∀ w : CommandWord, 6 ≤ (w.extractLsb' 64 4).toNat →
      decode (.command w) = .ok (.illegal67 (w.extractLsb' 64 4)) ∨
        decode (.command w) = .ok (.illegal8F (w.extractLsb' 64 4))

/-- R158: an index beyond its space is answered BAD_INDEX with data 0 and changes nothing; the index is not recorded. -/
def Obligations.BadIndexAnswers : Prop :=
  ∀ (s : State) (i : Instance) (idx : Nat), s.inst = some i →
    (i.N ≤ idx → exec (.rdtap idx) s =
      .next { s with outputs := s.outputs ++ [.response (responseWord .badIndex 0)] }) ∧
    (i.N ≤ idx → exec (.rdsr idx) s =
      .next { s with outputs := s.outputs ++ [.response (responseWord .badIndex 0)] }) ∧
    (10 ≤ idx → exec (.rdcfg idx) s =
      .next { s with outputs := s.outputs ++ [.response (responseWord .badIndex 0)] })

/-- R64 and R61: every command is answered with exactly one response word, whose status is never 3; a status other than
OK comes with data 0 and no change of state; PROCESS, RDGAIN and NOP always answer OK. In a response word bits 65..64 are
the status, 0, 1 or 2, and bits 63..0 the data. -/
def Obligations.EveryCommandGetsOneResponse : Prop :=
  (∀ data : Word,
    responseWord .ok data = 0#2 ++ data ∧ responseWord .illegalOp data = 1#2 ++ data ∧
      responseWord .badIndex data = 2#2 ++ data ∧
    ∀ st : Status, (responseWord st data).extractLsb' 64 2 =
        (match st with | .ok => 0#2 | .illegalOp => 1#2 | .badIndex => 2#2) ∧
      (responseWord st data).extractLsb' 0 64 = data) ∧
  ∀ (op : Instr) (s : State) (i : Instance), s.inst = some i → isConstruct op = false → op ≠ .reset →
    ∃ (t : State) (r : ResponseWord), exec op s = .next t ∧ t.outputs = s.outputs ++ [.response r] ∧
      r.extractLsb' 64 2 ≠ 3#2 ∧
      (r.extractLsb' 64 2 ≠ 0#2 →
        r.extractLsb' 0 64 = 0#64 ∧ t = { s with outputs := s.outputs ++ [.response r] }) ∧
      (isProcess op = true ∨ op = .rdgain ∨ op = .nop → r.extractLsb' 64 2 = 0#2)

/-- R72, R143: DESCRIBE answers the fields in the order given and leaves the instance as it was. -/
def Obligations.DescribeReadsSnapshot : Prop :=
  ∀ (s : State) (i : Instance), s.inst = some i → i.wf = true →
    runInstrs (describe i.N) s = .next { s with outputs := (s.outputs ++
      ([i.kind.zeroExtend 64, i.fs, i.f0, i.f1, i.gain, i.numTaps.signExtend 64] ++ i.taps ++ i.sr).map
        (fun w => HostOutput.response (responseWord .ok w))) }

/-- R141: leaving out every accessor, NOP and illegal command of a run changes neither the instance it ends in nor any
response of its PROCESS operations. Two NaN responses agree whatever their bits (`spec/93_implementation_defined.md` I3),
so the two runs start from states that need have no more in common than the instance. -/
def Obligations.AccessorsDoNotDisturbTheStream : Prop :=
  ∀ (prog : List Instr) (s s' t : State), (∀ op ∈ prog, isConstruct op = false) → s.inst.isSome = true →
    s'.inst = s.inst → runInstrs prog s = .next t →
    ∃ t', runInstrs (prog.filter writesSr) s' = .next t' ∧ t'.inst = t.inst ∧
      List.Forall₂ HostOutput.SameResult (processResponses (prog.filter writesSr) s') (processResponses prog s)

/-! ## Reset (`spec/70_reset_and_hazards.md`) -/

/-- R181: RESET, which `rst = 1` is, zero-fills the register and changes nothing else, gives no response, changes nothing in the
reset state, and the first PROCESS after it behaves as the first one after construction (two NaN responses agree whatever
their bits, `spec/93_implementation_defined.md` I3). -/
def Obligations.ResetClearsOnlyTheRegister : Prop :=
  decode (.pin 1) = .ok .reset ∧
  ∀ (s : State) (i : Instance), s.inst = some i →
    exec .reset s = .next { s with inst := some { i with sr := List.replicate i.N 0#64 } } ∧
    (i.sr = List.replicate i.N 0#64 → exec .reset s = .next s) ∧
    (∀ (s₀ : State) (i₀ : Instance) (x : Word), s₀.inst = some i₀ → i₀.sr = List.replicate i₀.N 0#64 →
      i = { i₀ with sr := i.sr } →
      ∃ (t t₀ : State) (y y₀ : Word), runInstrs [.reset, .process x] s = .next t ∧
        exec (.process x) s₀ = .next t₀ ∧ t.inst = t₀.inst ∧
        t.outputs = s.outputs ++ [.response (responseWord .ok y)] ∧
        t₀.outputs = s₀.outputs ++ [.response (responseWord .ok y₀)] ∧ B64.SameResult y y₀)

/-! ## Invariants -/

/-- Before the first CONSTRUCT the invariant of designed instances holds: there is no instance (log entry 4). -/
def Obligations.ResetStateIsDesigned : Prop :=
  State.reset.Designed ∧ Memory.wf State.reset = true

/-- R23, R24, R97: every step keeps the instance the design of its own parameters; in particular the gain stays the
index-order sum of the taps. -/
def Obligations.StepKeepsDesign : Prop :=
  ∀ s t : State, s.Designed → step s = .next t → t.Designed

/-- A designed instance is in canonical form: `N` in 1..1000, `N` taps, `N` register entries, a recognised kind. -/
def Obligations.DesignedInstanceIsWellFormed : Prop :=
  ∀ i : Instance, i.Designed → i.wf = true

/-- Every step keeps the spaces of the instance at their sizes. -/
def Obligations.StepKeepsMemoryForm : Prop :=
  ∀ s t : State, Memory.wf s = true → step s = .next t → Memory.wf t = true

/-- R23, R24, R25: over any number of steps the instance, once there, stays, and nothing of it changes but the shift
register. -/
def Obligations.ConstantsNeverChange : Prop :=
  ∀ (k : Nat) (s t : State) (i : Instance), s.inst = some i → core.run k s = .next t →
    ∃ sr, t.inst = some { i with sr := sr }

/-- R21: the shift register is written by PROCESS and by RESET and by nothing else. -/
def Obligations.OnlyProcessAndResetWriteTheRegister : Prop :=
  ∀ (op : Instr) (s t : State) (i j : Instance), exec op s = .next t → s.inst = some i → t.inst = some j →
    j.sr ≠ i.sr → op = .reset ∨ ∃ x, op = .process x

/-! ## Arithmetic (`spec/00_scope.md`) -/

/-- R12: addition and subtraction of finite values are correctly rounded. -/
def Obligations.AdditionIsCorrectlyRounded : Prop :=
  ∀ q a b : Word, B64.isFinite a = true → B64.isFinite b = true →
    (B64.toRat a + B64.toRat b ≠ 0 → B64.RoundsTo (B64.toRat a + B64.toRat b) (B64.fadd q a b)) ∧
    (B64.toRat a - B64.toRat b ≠ 0 → B64.RoundsTo (B64.toRat a - B64.toRat b) (B64.fsub q a b))

/-- R12: multiplication of finite values is correctly rounded. -/
def Obligations.MultiplicationIsCorrectlyRounded : Prop :=
  ∀ q a b : Word, B64.isFinite a = true → B64.isFinite b = true → B64.toRat a * B64.toRat b ≠ 0 →
    B64.RoundsTo (B64.toRat a * B64.toRat b) (B64.fmul q a b)

/-- R12: division of finite values by a finite value that is not zero is correctly rounded. -/
def Obligations.DivisionIsCorrectlyRounded : Prop :=
  ∀ q a b : Word, B64.isFinite a = true → B64.isFinite b = true → B64.toRat b ≠ 0 → B64.toRat a ≠ 0 →
    B64.RoundsTo (B64.toRat a / B64.toRat b) (B64.fdiv q a b)

/-- R12: the sign of a zero result of each operation: sums, differences, products with a zero as either factor, and
quotients of a zero by a finite value that is not a zero, of a zero by an infinity, and of any finite value by an
infinity. -/
def Obligations.SignsOfZeroResults : Prop :=
  (∀ q : Word,
    B64.fadd q 0x0000000000000000#64 0x0000000000000000#64 = 0x0000000000000000#64 ∧
    B64.fadd q 0x0000000000000000#64 0x8000000000000000#64 = 0x0000000000000000#64 ∧
    B64.fadd q 0x8000000000000000#64 0x0000000000000000#64 = 0x0000000000000000#64 ∧
    B64.fadd q 0x8000000000000000#64 0x8000000000000000#64 = 0x8000000000000000#64 ∧
    B64.fsub q 0x0000000000000000#64 0x0000000000000000#64 = 0x0000000000000000#64 ∧
    B64.fsub q 0x0000000000000000#64 0x8000000000000000#64 = 0x0000000000000000#64 ∧
    B64.fsub q 0x8000000000000000#64 0x0000000000000000#64 = 0x8000000000000000#64 ∧
    B64.fsub q 0x8000000000000000#64 0x8000000000000000#64 = 0x0000000000000000#64) ∧
  (∀ q x : Word, B64.isFinite x = true → B64.fsub q x x = 0x0000000000000000#64 ∧
    (B64.isZero x = false → B64.fadd q x (B64.fneg x) = 0x0000000000000000#64)) ∧
  (∀ q a b : Word, B64.isFinite a = true → B64.isFinite b = true → B64.isZero a = true ∨ B64.isZero b = true →
    B64.sign (B64.fmul q a b) = (B64.sign a ^^ B64.sign b) ∧ B64.isZero (B64.fmul q a b) = true) ∧
  (∀ q a b : Word, B64.isFinite a = true →
    (B64.isZero a = true ∧ B64.isFinite b = true ∧ B64.isZero b = false) ∨ B64.isInf b = true →
    B64.sign (B64.fdiv q a b) = (B64.sign a ^^ B64.sign b) ∧ B64.isZero (B64.fdiv q a b) = true)

/-- R12: the results that are drawn NaNs, and those that are infinities because an operand is one or the divisor is a
zero. -/
def Obligations.ExceptionalResults : Prop :=
  ∀ q a b : Word,
    (B64.isNaN a = true ∨ B64.isNaN b = true →
      B64.fadd q a b = q ∧ B64.fsub q a b = q ∧ B64.fmul q a b = q ∧ B64.fdiv q a b = q) ∧
    (B64.isZero a = true → B64.isInf b = true → B64.fmul q a b = q ∧ B64.fmul q b a = q) ∧
    (B64.isInf a = true → B64.isInf b = true → B64.fdiv q a b = q ∧
      (B64.sign a = B64.sign b → B64.fsub q a b = q ∧ B64.fadd q a b = a) ∧
      (B64.sign a ≠ B64.sign b → B64.fadd q a b = q ∧ B64.fsub q a b = a)) ∧
    (B64.isInf a = true → B64.isFinite b = true →
      B64.fadd q a b = a ∧ B64.fadd q b a = a ∧ B64.fsub q a b = a ∧ B64.fsub q b a = B64.fneg a) ∧
    (B64.isInf a = true → B64.isNaN b = false → B64.isZero b = false →
      (B64.isInf (B64.fmul q a b) = true ∧ B64.sign (B64.fmul q a b) = (B64.sign a ^^ B64.sign b)) ∧
      (B64.isInf (B64.fmul q b a) = true ∧ B64.sign (B64.fmul q b a) = (B64.sign b ^^ B64.sign a))) ∧
    (B64.isInf a = true → B64.isFinite b = true →
      B64.isInf (B64.fdiv q a b) = true ∧ B64.sign (B64.fdiv q a b) = (B64.sign a ^^ B64.sign b)) ∧
    (B64.isZero a = true → B64.isZero b = true → B64.fdiv q a b = q) ∧
    (B64.isFinite a = true → B64.isZero a = false → B64.isZero b = true →
      B64.isInf (B64.fdiv q a b) = true ∧ B64.sign (B64.fdiv q a b) = (B64.sign a ^^ B64.sign b))

/-- R12: `ofInt` is exact on its domain. -/
def Obligations.OfIntIsExact : Prop :=
  ∀ k : Int, -2 ^ 31 ≤ k → k < 2 ^ 31 → B64.isFinite (B64.ofInt k) = true ∧ B64.toRat (B64.ofInt k) = (k : ℚ)

/-- R13: the comparisons are the quiet ones: false on a NaN (not-equal true), the order of the values on finite words,
the two zeros equal, an infinity beyond every finite value. -/
def Obligations.ComparisonsAreQuiet : Prop :=
  ∀ a b : Word,
    (B64.isNaN a = true ∨ B64.isNaN b = true →
      B64.flt a b = false ∧ B64.fgt a b = false ∧ B64.feq a b = false ∧ B64.fne a b = true) ∧
    (B64.isFinite a = true → B64.isFinite b = true →
      (B64.flt a b = true ↔ B64.toRat a < B64.toRat b) ∧ (B64.fgt a b = true ↔ B64.toRat a > B64.toRat b) ∧
      (B64.feq a b = true ↔ B64.toRat a = B64.toRat b)) ∧
    (B64.isFinite a = true → B64.isInf b = true →
      B64.flt a b = !B64.sign b ∧ B64.fgt a b = B64.sign b ∧ B64.feq a b = false) ∧
    (B64.isInf a = true → B64.isInf b = true →
      B64.flt a b = (B64.sign a && !B64.sign b) ∧ B64.feq a b = (B64.sign a == B64.sign b)) ∧
    B64.fgt a b = B64.flt b a ∧ B64.fne a b = !B64.feq a b ∧
    B64.feq 0x0000000000000000#64 0x8000000000000000#64 = true

/-- R15: the sine has the five guaranteed properties, with `SIN_ULP` an open positive parameter. How the
model has an open function with these properties is its own choice (log entry 2). -/
def Obligations.SineHasItsGuaranteedProperties : Prop :=
  0 < B64.sinUlp ∧
  (B64.fsin 0x0000000000000000#64 = 0x0000000000000000#64 ∧
    B64.fsin 0x8000000000000000#64 = 0x8000000000000000#64) ∧
  (∀ x, B64.isNaN x = false → B64.fsin (B64.fneg x) = B64.fneg (B64.fsin x)) ∧
  (∀ x, B64.isFinite x = true → B64.isFinite (B64.fsin x) = true ∧
    |B64.toReal (B64.fsin x) - Real.sin (B64.toReal x)| ≤
      (B64.sinUlp : ℝ) * B64.ulpReal (Real.sin (B64.toReal x))) ∧
  (∀ x, B64.isNaN x = true ∨ B64.isInf x = true → B64.isQuietNaN (B64.fsin x) = true) ∧
  (∀ x, B64.isFinite x = true → |B64.toRat (B64.fsin x)| ≤ 1)

/-- R12: `fneg` flips bit 63 and nothing else, on every word, NaNs and zeros included. -/
def Obligations.NegationFlipsTheSignBitOnly : Prop :=
  ∀ a : Word, (B64.fneg a).getLsbD 63 = !a.getLsbD 63 ∧ ∀ k, k ≠ 63 → (B64.fneg a).getLsbD k = a.getLsbD k

/-! ## The taps and the other constants, written out (`spec/40_design.md`) -/

/-- R93, R94, R95: every tap of each kind, at the centre and away from it, in the operations of B64 with `ZERO`, `ONE`,
`TWO` and `PI` as their words, and under REAL as the source's formulas. -/
def Obligations.KernelsAreTheFormulas : Prop :=
  (∀ (q : Word) (n N : Nat) (lambda phi m : Word), N ≤ 1000 → n < N →
    m = B64.fsub q (B64.ofInt n) (B64.fdiv q (B64.ofInt ((N : Int) - 1)) 0x4000000000000000#64) →
    tap (b64 q) .lowPass n N lambda phi =
      (if 2 * n + 1 = N then B64.fdiv q lambda 0x400921FB54442D18#64
      else B64.fdiv q (B64.fsin (B64.fmul q m lambda)) (B64.fmul q m 0x400921FB54442D18#64)) ∧
    tap (b64 q) .highPass n N lambda phi =
      (if 2 * n + 1 = N then B64.fsub q 0x3FF0000000000000#64 (B64.fdiv q lambda 0x400921FB54442D18#64)
      else B64.fneg (B64.fdiv q (B64.fsin (B64.fmul q m lambda)) (B64.fmul q m 0x400921FB54442D18#64))) ∧
    tap (b64 q) .bandPass n N lambda phi =
      (if 2 * n + 1 = N then B64.fdiv q (B64.fsub q phi lambda) 0x400921FB54442D18#64
      else B64.fdiv q (B64.fsub q (B64.fsin (B64.fmul q m phi)) (B64.fsin (B64.fmul q m lambda)))
        (B64.fmul q m 0x400921FB54442D18#64))) ∧
  (∀ (n N : Nat) (lambda phi m : ℝ), n < N → m = (n : ℝ) - ((N : ℝ) - 1) / 2 →
    tap real .lowPass n N lambda phi =
      (if 2 * n + 1 = N then lambda / Real.pi else Real.sin (m * lambda) / (m * Real.pi)) ∧
    tap real .highPass n N lambda phi =
      (if 2 * n + 1 = N then 1 - lambda / Real.pi else -(Real.sin (m * lambda) / (m * Real.pi))) ∧
    tap real .bandPass n N lambda phi =
      (if 2 * n + 1 = N then (phi - lambda) / Real.pi
      else (Real.sin (m * phi) - Real.sin (m * lambda)) / (m * Real.pi)))

/-- R89, R97, R98, from a CONSTRUCT that succeeds: the angles, each of the `N` taps as the tap of the record's kind
number, and the gain as the sum of the taps in index order from `ZERO`, in the operations of B64. -/
def Obligations.ConstructFillsTheConstants : Prop :=
  ∀ (r : Record) (s t : State) (i : Instance), exec (.construct r) s = .next t → t.inst = some i →
    i.N = r.numTaps.toInt.toNat ∧ i.taps.length = i.N ∧
    (∃ q, B64.isQuietNaN q = true ∧ i.lambda =
      B64.fdiv q (B64.fmul q 0x400921FB54442D18#64 r.f0) (B64.fdiv q r.fs 0x4000000000000000#64)) ∧
    (∃ q, B64.isQuietNaN q = true ∧ i.phi =
      B64.fdiv q (B64.fmul q 0x400921FB54442D18#64 r.f1) (B64.fdiv q r.fs 0x4000000000000000#64)) ∧
    (∀ n, n < i.N → ∃ q, B64.isQuietNaN q = true ∧
      (r.kind = 0 → i.taps[n]? = some (tap (b64 q) .lowPass n i.N i.lambda i.phi)) ∧
      (r.kind = 1 → i.taps[n]? = some (tap (b64 q) .highPass n i.N i.lambda i.phi)) ∧
      (r.kind = 2 → i.taps[n]? = some (tap (b64 q) .bandPass n i.N i.lambda i.phi))) ∧
    r.kind.toNat ≤ 2 ∧
    (∃ q, B64.isQuietNaN q = true ∧ i.gain = i.taps.foldl (fun acc t => B64.fadd q acc t) 0x0000000000000000#64)
end

