-- ==== Sys2Proof/Laws/Decode.lean ====
section
/-! SUPPORT. Lemmas about decoding and encoding: the fields of assembled words, and that what the decoder gives is well
formed. -/

namespace Sys2Proof

@[simp] theorem opField_commandWord (op : BitVec 4) (arg : Word) : opField (commandWord op arg) = op :=
  BitVec.extractLsb'_append_eq_left

@[simp] theorem argField_commandWord (op : BitVec 4) (arg : Word) : argField (commandWord op arg) = arg :=
  BitVec.extractLsb'_append_eq_right

/-- A command word is its two fields (R62). -/
theorem commandWord_fields (w : CommandWord) : commandWord (opField w) (argField w) = w := by
  apply BitVec.eq_of_getLsbD_eq
  intro i hi
  simp only [commandWord, opField, argField, BitVec.getLsbD_append, BitVec.getLsbD_extractLsb']
  by_cases h : i < 64
  · simp [h]
  · have h4 : i - 64 < 4 := by omega
    simp [h, h4, Nat.add_sub_cancel' (Nat.le_of_not_lt h)]

/-- An index that the decoder reads fits the field (R65(b)). -/
theorem indexFits_toNat (w : Word) : indexFits w.toNat = true := by
  simp only [indexFits, decide_eq_true_eq]; exact w.isLt

/-- Every operation that a command word decodes to is well formed (R68, R69). -/
theorem decodeCommand_wellFormed (w : CommandWord) : (decodeCommand w).wellFormed = true := by
  have hlt : (opField w).toNat < 16 := (opField w).isLt
  have key : ∀ k, (opField w).toNat = k → opField w = BitVec.ofNat 4 k := by
    intro k hk; rw [← hk, BitVec.ofNat_toNat, BitVec.setWidth_eq]
  by_cases h8 : 8 ≤ (opField w).toNat
  · have : decodeCommand w = .illegal8F (opField w) := by
      unfold decodeCommand
      split <;> first | rfl | omega
    rw [this]; simpa [Instr.wellFormed] using h8
  · have h7 : (opField w).toNat < 8 := by omega
    interval_cases h : (opField w).toNat <;> simp only [decodeCommand, h, Instr.wellFormed, indexFits_toNat]
    · rw [key _ rfl]; decide
    · rw [key _ rfl]; decide

/-- What the decoder gives is well formed. -/
theorem decode_wellFormed (e : Encoded) (i : Instr) (h : decode e = .ok i) : i.wellFormed = true := by
  cases e with
  | record r => cases h; rfl
  | pin rst =>
    simp only [decode] at h
    split at h <;> cases h
    rfl
  | command w => cases h; exact decodeCommand_wellFormed w

end Sys2Proof
end

