-- ==== Sys2Proof/Laws/State.lean ====
section
/-! SUPPORT. One lemma per field and update of the state and of the instance, so that no proof unfolds a record
update. -/

namespace Sys2Proof.Machine

@[simp] theorem State.respond_inst (s : State) (st : Status) (d : Word) : (s.respond st d).inst = s.inst := rfl
@[simp] theorem State.respond_draws (s : State) (st : Status) (d : Word) : (s.respond st d).draws = s.draws := rfl
@[simp] theorem State.respond_inputs (s : State) (st : Status) (d : Word) : (s.respond st d).inputs = s.inputs := rfl
@[simp] theorem State.respond_outputs (s : State) (st : Status) (d : Word) : (s.respond st d).outputs = s.outputs ++ [.response (responseWord st d)] := rfl

@[simp] theorem State.raiseInvalidParameter_inst (s : State) (c : Constraint) : (s.raiseInvalidParameter c).inst = s.inst := rfl
@[simp] theorem State.raiseInvalidParameter_draws (s : State) (c : Constraint) : (s.raiseInvalidParameter c).draws = s.draws := rfl
@[simp] theorem State.raiseInvalidParameter_inputs (s : State) (c : Constraint) : (s.raiseInvalidParameter c).inputs = s.inputs := rfl
@[simp] theorem State.raiseInvalidParameter_outputs (s : State) (c : Constraint) : (s.raiseInvalidParameter c).outputs = s.outputs ++ [.invalidParameter c] := rfl

@[simp] theorem State.withInst_inst (s : State) (i : Instance) : (s.withInst i).inst = some i := rfl
@[simp] theorem State.withInst_draws (s : State) (i : Instance) : (s.withInst i).draws = s.draws := rfl
@[simp] theorem State.withInst_inputs (s : State) (i : Instance) : (s.withInst i).inputs = s.inputs := rfl
@[simp] theorem State.withInst_outputs (s : State) (i : Instance) : (s.withInst i).outputs = s.outputs := rfl

@[simp] theorem State.advanceDraws_inst (s : State) (k : Nat) : (s.advanceDraws k).inst = s.inst := rfl
@[simp] theorem State.advanceDraws_draws (s : State) (k : Nat) : (s.advanceDraws k).draws = s.draws + k := rfl
@[simp] theorem State.advanceDraws_inputs (s : State) (k : Nat) : (s.advanceDraws k).inputs = s.inputs := rfl
@[simp] theorem State.advanceDraws_outputs (s : State) (k : Nat) : (s.advanceDraws k).outputs = s.outputs := rfl

@[simp] theorem State.illegalOp_inst (s : State) : (s.illegalOp).inst = s.inst := rfl
@[simp] theorem State.illegalOp_draws (s : State) : (s.illegalOp).draws = s.draws := rfl
@[simp] theorem State.illegalOp_inputs (s : State) : (s.illegalOp).inputs = s.inputs := rfl
@[simp] theorem State.illegalOp_outputs (s : State) : (s.illegalOp).outputs = s.outputs ++ [.response (responseWord .illegalOp 0)] := rfl

@[simp] theorem State.takeInput_inst (s : State) : (s.takeInput).inst = s.inst := rfl
@[simp] theorem State.takeInput_draws (s : State) : (s.takeInput).draws = s.draws := rfl
@[simp] theorem State.takeInput_inputs (s : State) : (s.takeInput).inputs = s.inputs.tail := rfl
@[simp] theorem State.takeInput_outputs (s : State) : (s.takeInput).outputs = s.outputs := rfl

@[simp] theorem Instance.writeSr_kind (i : Instance) (sr : List Word) : (i.writeSr sr).kind = i.kind := rfl
@[simp] theorem Instance.writeSr_numTaps (i : Instance) (sr : List Word) : (i.writeSr sr).numTaps = i.numTaps := rfl
@[simp] theorem Instance.writeSr_fs (i : Instance) (sr : List Word) : (i.writeSr sr).fs = i.fs := rfl
@[simp] theorem Instance.writeSr_f0 (i : Instance) (sr : List Word) : (i.writeSr sr).f0 = i.f0 := rfl
@[simp] theorem Instance.writeSr_f1 (i : Instance) (sr : List Word) : (i.writeSr sr).f1 = i.f1 := rfl
@[simp] theorem Instance.writeSr_lambda (i : Instance) (sr : List Word) : (i.writeSr sr).lambda = i.lambda := rfl
@[simp] theorem Instance.writeSr_phi (i : Instance) (sr : List Word) : (i.writeSr sr).phi = i.phi := rfl
@[simp] theorem Instance.writeSr_gain (i : Instance) (sr : List Word) : (i.writeSr sr).gain = i.gain := rfl
@[simp] theorem Instance.writeSr_normalize (i : Instance) (sr : List Word) : (i.writeSr sr).normalize = i.normalize := rfl
@[simp] theorem Instance.writeSr_taps (i : Instance) (sr : List Word) : (i.writeSr sr).taps = i.taps := rfl
@[simp] theorem Instance.writeSr_sr (i : Instance) (sr : List Word) : (i.writeSr sr).sr = sr := rfl
@[simp] theorem Instance.writeSr_N (i : Instance) (sr : List Word) : (i.writeSr sr).N = i.N := rfl
@[simp] theorem Instance.writeSr_writeSr (i : Instance) (a b : List Word) :
    (i.writeSr a).writeSr b = i.writeSr b := rfl
@[simp] theorem Instance.writeSr_self (i : Instance) : i.writeSr i.sr = i := rfl
@[simp] theorem Instance.writeSr_cfgWord (i : Instance) (sr : List Word) (idx : Nat) :
    (i.writeSr sr).cfgWord idx = i.cfgWord idx := by
  unfold Instance.cfgWord; rfl

@[simp] theorem State.reset_inst : State.reset.inst = none := rfl
@[simp] theorem State.reset_draws : State.reset.draws = 0 := rfl
@[simp] theorem State.reset_inputs : State.reset.inputs = [] := rfl
@[simp] theorem State.reset_outputs : State.reset.outputs = [] := rfl

@[simp] theorem buildInstance_sr (r : Record) (k : FilterKind) (d : Nat) :
    (buildInstance r k d).sr = zeroSr (buildInstance r k d).N := rfl
@[simp] theorem buildInstance_numTaps (r : Record) (k : FilterKind) (d : Nat) :
    (buildInstance r k d).numTaps = r.numTaps := rfl
@[simp] theorem buildInstance_kind (r : Record) (k : FilterKind) (d : Nat) :
    (buildInstance r k d).kind = r.kind := rfl
@[simp] theorem buildInstance_normalize (r : Record) (k : FilterKind) (d : Nat) :
    (buildInstance r k d).normalize = r.normalize := rfl

end Sys2Proof.Machine
end

