-- ==== Sys2Proof/Laws/Ops.lean ====
section
/-! SUPPORT. For each shared operation, what it can do, said once. -/

namespace Sys2Proof.Machine

/-! ## Acting on the instance -/

/-- With an instance, `onInstance` answers the next state of its argument. -/
theorem onInstance_some (s : State) (i : Instance) (f : Instance → State) (h : s.inst = some i) :
    onInstance s f = .next (f i) := by
  simp [onInstance, h]

/-- Without an instance, `onInstance` faults. -/
theorem onInstance_none (s : State) (f : Instance → State) (h : s.inst = none) :
    onInstance s f = .fault .noInstance := by
  simp [onInstance, h]

/-- If `onInstance` answers a next state, an instance exists and the state is the argument's at it. -/
theorem onInstance_next (s t : State) (f : Instance → State) (h : onInstance s f = .next t) :
    ∃ i, s.inst = some i ∧ t = f i := by
  unfold onInstance at h
  split at h
  · cases h
  · next i hi => exact ⟨i, hi, by cases h; rfl⟩

/-! ## Answers -/

/-- `answerRead` responds OK with a word that is there and BAD_INDEX with 0 otherwise. -/
theorem State.answerRead_cases (s : State) (o : Option Word) :
    (∃ d, o = some d ∧ s.answerRead o = s.respond .ok d) ∨
      (o = none ∧ s.answerRead o = s.respond .badIndex 0) := by
  cases o with
  | none => exact .inr ⟨rfl, rfl⟩
  | some d => exact .inl ⟨d, rfl, rfl⟩

@[simp] theorem State.answerRead_inst (s : State) (o : Option Word) : (s.answerRead o).inst = s.inst := by
  cases o <;> rfl
@[simp] theorem State.answerRead_draws (s : State) (o : Option Word) : (s.answerRead o).draws = s.draws := by
  cases o <;> rfl
@[simp] theorem State.answerRead_inputs (s : State) (o : Option Word) : (s.answerRead o).inputs = s.inputs := by
  cases o <;> rfl

@[simp] theorem statusField_responseWord (st : Status) (d : Word) :
    statusField (responseWord st d) = statusCode st := by
  exact BitVec.extractLsb'_append_eq_left

@[simp] theorem dataField_responseWord (st : Status) (d : Word) : dataField (responseWord st d) = d := by
  exact BitVec.extractLsb'_append_eq_right

/-! ## The address spaces -/

/-- A read of the tap ROM is defined below `N` only, and gives the tap (R41). -/
theorem Instance.memRead_tap (i : Instance) (idx : Nat) :
    i.memRead .tap idx = if idx < i.N then i.taps[idx]? else none := rfl

/-- A read of the shift register is defined below `N` only, and gives the entry (R41). -/
theorem Instance.memRead_sr (i : Instance) (idx : Nat) :
    i.memRead .sr idx = if idx < i.N then i.sr[idx]? else none := rfl

/-- A read of a configuration register gives its word (R25, R41). -/
theorem Instance.memRead_cfg (i : Instance) (idx : Nat) : i.memRead .cfg idx = i.cfgWord idx := rfl

/-- There are ten configuration registers (R25). -/
theorem Instance.cfgWord_isSome (i : Instance) (idx : Nat) : (i.cfgWord idx).isSome ↔ idx < 10 := by
  unfold Instance.cfgWord
  split <;> simp_all
  omega

/-- A write of the shift register leaves the other spaces as they were (R44). -/
theorem Instance.memRead_writeSr (i : Instance) (sr : List Word) (sp : Space) (h : sp ≠ .sr) (idx : Nat) :
    (i.writeSr sr).memRead sp idx = i.memRead sp idx := by
  cases sp with
  | tap => rfl
  | sr => exact absurd rfl h
  | cfg => exact i.writeSr_cfgWord sr idx

@[simp] theorem shiftIn_length (n : Nat) (x : Word) (sr : List Word) (h : sr.length = n) :
    (shiftIn n x sr).length = n := by
  simp only [shiftIn, List.length_take, List.length_cons]; omega

@[simp] theorem zeroSr_length (n : Nat) : (zeroSr n).length = n := by simp [zeroSr]

/-! ## The canonical form of the memory -/

/-- What the canonical form says. -/
theorem Instance.wf_iff (i : Instance) :
    i.wf = true ↔ 1 ≤ i.numTaps.toInt ∧ i.numTaps.toInt ≤ 1000 ∧ i.taps.length = i.N ∧ i.sr.length = i.N ∧
      i.kind.toNat ≤ 2 := by
  unfold Instance.wf
  simp only [Bool.and_eq_true, decide_eq_true_eq, beq_iff_eq, and_assoc]
  rfl

/-- A write of `N` words to the shift register keeps the canonical form. -/
theorem Instance.wf_writeSr (i : Instance) (sr : List Word) (h : i.wf = true) (hl : sr.length = i.N) :
    (i.writeSr sr).wf = true := by
  rw [Instance.wf_iff] at *
  simp_all

/-- An instance in canonical form has at least one tap. -/
theorem Instance.one_le_N (i : Instance) (h : i.wf = true) : 1 ≤ i.N := by
  rw [Instance.wf_iff] at h
  simp only [Instance.N]; omega

/-- The push of a sample keeps the canonical form. -/
theorem Instance.wf_shiftIn (i : Instance) (x : Word) (h : i.wf = true) :
    (i.writeSr (shiftIn i.N x i.sr)).wf = true :=
  i.wf_writeSr _ h (shiftIn_length _ _ _ (i.wf_iff.mp h).2.2.2.1)

/-- The zero-fill keeps the canonical form. -/
theorem Instance.wf_zeroSr (i : Instance) (h : i.wf = true) : (i.writeSr (zeroSr i.N)).wf = true :=
  i.wf_writeSr _ h (zeroSr_length _)

/-- The machine before the first CONSTRUCT has the canonical form. -/
theorem Memory.wf_reset : Memory.wf State.reset = true := rfl

end Sys2Proof.Machine
end

