-- ==== Sys2Proof/Laws/Exec.lean ====
section
/-! SUPPORT. What one instruction and one step can do, said once: every invariant follows from these cases without
unfolding a meaning again. -/

namespace Sys2Proof.Machine

/-- What CONSTRUCT can do when it answers a next state. -/
theorem execConstruct_next (r : Record) (s t : State) (h : execConstruct r s = .next t) :
    s.inst = none ∧
      ((∃ c, validateRecord r s.draws = .error c ∧ t = s.raiseInvalidParameter c) ∨
        (∃ kind, validateRecord r s.draws = .ok kind ∧
          t = (s.withInst (buildInstance r kind s.draws)).advanceDraws (constructDraws r.numTaps.toInt.toNat))) := by
  unfold execConstruct at h
  split at h
  · cases h
  · next hn =>
    refine ⟨hn, ?_⟩
    split at h
    · next c hc => cases h; exact .inl ⟨c, hc, rfl⟩
    · next kind hk => cases h; exact .inr ⟨kind, hk, rfl⟩

/-- What an instruction can do when it answers a next state: construct, push a sample, clear the register, or only
answer. -/
theorem exec_next_cases (op : Instr) (s t : State) (h : exec op s = .next t) :
    (∃ r, op = .construct r ∧ execConstruct r s = .next t) ∨
    (∃ i x, op = .process x ∧ s.inst = some i ∧
      t = ((s.withInst (i.writeSr (shiftIn i.N x i.sr))).advanceDraws 1).respond .ok
        (outputValue (b64Draw s.draws) i (shiftIn i.N x i.sr))) ∨
    (∃ i, op = .reset ∧ s.inst = some i ∧ t = s.withInst (i.writeSr (zeroSr i.N))) ∨
    (∃ i st d, writesSr op = false ∧ isConstruct op = false ∧ s.inst = some i ∧ t = s.respond st d) := by
  cases op with
  | construct r => exact .inl ⟨r, rfl, h⟩
  | process x =>
    obtain ⟨i, hi, ht⟩ := onInstance_next s t _ h
    exact .inr (.inl ⟨i, x, rfl, hi, ht⟩)
  | reset =>
    obtain ⟨i, hi, ht⟩ := onInstance_next s t _ h
    exact .inr (.inr (.inl ⟨i, rfl, hi, ht⟩))
  | nop =>
    obtain ⟨i, hi, ht⟩ := onInstance_next s t _ h
    exact .inr (.inr (.inr ⟨i, _, _, rfl, rfl, hi, ht⟩))
  | rdgain =>
    obtain ⟨i, hi, ht⟩ := onInstance_next s t _ h
    exact .inr (.inr (.inr ⟨i, _, _, rfl, rfl, hi, ht⟩))
  | rdtap idx =>
    obtain ⟨i, hi, ht⟩ := onInstance_next s t _ h
    rcases s.answerRead_cases (i.memRead .tap idx) with ⟨d, _, e⟩ | ⟨_, e⟩ <;>
      exact .inr (.inr (.inr ⟨i, _, _, rfl, rfl, hi, ht.trans e⟩))
  | rdsr idx =>
    obtain ⟨i, hi, ht⟩ := onInstance_next s t _ h
    rcases s.answerRead_cases (i.memRead .sr idx) with ⟨d, _, e⟩ | ⟨_, e⟩ <;>
      exact .inr (.inr (.inr ⟨i, _, _, rfl, rfl, hi, ht.trans e⟩))
  | rdcfg idx =>
    obtain ⟨i, hi, ht⟩ := onInstance_next s t _ h
    rcases s.answerRead_cases (i.memRead .cfg idx) with ⟨d, _, e⟩ | ⟨_, e⟩ <;>
      exact .inr (.inr (.inr ⟨i, _, _, rfl, rfl, hi, ht.trans e⟩))
  | illegal67 op =>
    obtain ⟨i, hi, ht⟩ := onInstance_next s t _ h
    exact .inr (.inr (.inr ⟨i, _, _, rfl, rfl, hi, ht⟩))
  | illegal8F op =>
    obtain ⟨i, hi, ht⟩ := onInstance_next s t _ h
    exact .inr (.inr (.inr ⟨i, _, _, rfl, rfl, hi, ht⟩))

/-- What a step can do when it answers a next state. -/
theorem step_next_cases (s t : State) (h : step s = .next t) :
    t = s ∨ t = s.takeInput ∨ ∃ op, exec op s.takeInput = .next t := by
  unfold step at h
  split at h
  · cases h; exact .inl rfl
  · split at h
    · cases h; exact .inr (.inl rfl)
    · next op _ => exact .inr (.inr ⟨op, h⟩)

end Sys2Proof.Machine
end

