-- ==== Sys2Proof/Laws/Num.lean ====
section
/-! SUPPORT. The members of the two instances of the numerics record, and the layout facts of B64 that later proofs
start from. -/

namespace Sys2Proof.Machine

section
variable (q : Word)
@[simp] theorem b64_zero : (b64 q).zero = B64.zero := rfl
@[simp] theorem b64_one : (b64 q).one = B64.one := rfl
@[simp] theorem b64_two : (b64 q).two = B64.two := rfl
@[simp] theorem b64_pi : (b64 q).pi = B64.pi := rfl
@[simp] theorem b64_ofInt : (b64 q).ofInt = B64.ofInt := rfl
@[simp] theorem b64_fadd : (b64 q).fadd = B64.fadd q := rfl
@[simp] theorem b64_fsub : (b64 q).fsub = B64.fsub q := rfl
@[simp] theorem b64_fmul : (b64 q).fmul = B64.fmul q := rfl
@[simp] theorem b64_fdiv : (b64 q).fdiv = B64.fdiv q := rfl
@[simp] theorem b64_fneg : (b64 q).fneg = B64.fneg := rfl
@[simp] theorem b64_fsin : (b64 q).fsin = B64.fsin := rfl
@[simp] theorem b64_flt : (b64 q).flt = B64.flt := rfl
@[simp] theorem b64_fgt : (b64 q).fgt = B64.fgt := rfl
@[simp] theorem b64_feq : (b64 q).feq = B64.feq := rfl
@[simp] theorem b64_fne : (b64 q).fne = B64.fne := rfl
end

@[simp] theorem real_zero : real.zero = 0 := rfl
@[simp] theorem real_one : real.one = 1 := rfl
@[simp] theorem real_two : real.two = 2 := rfl
@[simp] theorem real_pi : real.pi = Real.pi := rfl
@[simp] theorem real_ofInt (k : Int) : real.ofInt k = k := rfl
@[simp] theorem real_fadd (a b : ℝ) : real.fadd a b = a + b := rfl
@[simp] theorem real_fsub (a b : ℝ) : real.fsub a b = a - b := rfl
@[simp] theorem real_fmul (a b : ℝ) : real.fmul a b = a * b := rfl
@[simp] theorem real_fdiv (a b : ℝ) : real.fdiv a b = a / b := rfl
@[simp] theorem real_fneg (a : ℝ) : real.fneg a = -a := rfl
@[simp] theorem real_fsin (a : ℝ) : real.fsin a = Real.sin a := rfl
@[simp] theorem real_feq (a b : ℝ) : real.feq a b = true ↔ a = b := by simp [real]
@[simp] theorem real_flt (a b : ℝ) : real.flt a b = true ↔ a < b := by simp [real]
@[simp] theorem real_fgt (a b : ℝ) : real.fgt a b = true ↔ a > b := by simp [real]

namespace B64

/-- A magnitude field fits in 63 bits. -/
theorem mag_lt (w : Word) : mag w < 2 ^ 63 := by
  unfold mag; exact Nat.mod_lt _ (by decide)

/-- The sign of a word, as a comparison of numbers. -/
theorem sign_eq (w : Word) : sign w = decide (2 ^ 63 ≤ w.toNat) := by
  simp [sign, BitVec.msb_eq_decide]

/-- The number that `pack` makes. -/
theorem toNat_pack (s : Bool) (m : Nat) (h : m < 2 ^ 63) :
    (pack s m).toNat = (if s then 2 ^ 63 else 0) + m := by
  cases s <;> simp [pack, Nat.shiftLeft_eq]
  · omega
  · omega

/-- `pack` sets the magnitude field. -/
@[simp] theorem mag_pack (s : Bool) (m : Nat) (h : m < 2 ^ 63) : mag (pack s m) = m := by
  simp only [mag, toNat_pack s m h, Nat.shiftLeft_eq]
  cases s <;> simp
  · omega
  · omega

/-- `pack` sets the sign. -/
@[simp] theorem sign_pack (s : Bool) (m : Nat) (h : m < 2 ^ 63) : sign (pack s m) = s := by
  rw [sign_eq, toNat_pack s m h]
  cases s <;> simp
  omega

/-- A word is its sign and its magnitude field. -/
theorem pack_sign_mag (w : Word) : pack (sign w) (mag w) = w := by
  apply BitVec.eq_of_toNat_eq
  rw [toNat_pack _ _ (mag_lt w), sign_eq]
  have := w.isLt
  simp only [mag, Nat.shiftLeft_eq, decide_eq_true_eq]
  split <;> omega

/-- `fneg` flips the sign (R12). -/
theorem fneg_eq (w : Word) : fneg w = pack (!sign w) (mag w) := by
  apply BitVec.eq_of_getLsbD_eq
  intro i hi
  have hc : (0x8000000000000000#64).getLsbD i = decide (i = 63) := by
    interval_cases i <;> rfl
  have hm : mag w < 2 ^ 63 := mag_lt w
  have hn : (pack (!sign w) (mag w)).toNat = 2 ^ 63 * (!sign w).toNat + mag w := by
    rw [toNat_pack _ _ hm]; cases sign w <;> rfl
  rw [fneg, BitVec.getLsbD_xor, hc, BitVec.getLsbD, BitVec.getLsbD, hn, Nat.testBit_two_pow_mul_add _ hm]
  by_cases h63 : i = 63
  · subst h63
    have hs : sign w = w.toNat.testBit 63 := by
      rw [sign, BitVec.msb_eq_getLsbD_last]; rfl
    rw [← hs]; cases sign w <;> rfl
  · have hlt : i < 63 := by omega
    have hw : (mag w).testBit i = w.toNat.testBit i := by
      rw [mag, Nat.shiftLeft_eq, one_mul, Nat.testBit_mod_two_pow]; simp [hlt]
    simp [hlt, h63, hw]

@[simp] theorem sign_fneg (w : Word) : sign (fneg w) = !sign w := by
  rw [fneg_eq, sign_pack _ _ (mag_lt w)]

@[simp] theorem mag_fneg (w : Word) : mag (fneg w) = mag w := by
  rw [fneg_eq, mag_pack _ _ (mag_lt w)]

@[simp] theorem fneg_fneg (w : Word) : fneg (fneg w) = w := by
  simp [fneg]

/-- Rounding never passes the magnitude field of an infinity. -/
theorem roundMag_le (n d : Nat) : roundMag n d ≤ infMag := Nat.min_le_right _ _

/-- Every drawn NaN is a quiet NaN (R12). -/
theorem isQuietNaN_quietNaN (b : BitVec 52) : isQuietNaN (quietNaN b) = true := by
  have hb : b.toNat % 2 ^ 51 < 2 ^ 51 := Nat.mod_lt _ (by decide)
  have hm : 0xFFF * 1 <<< 51 + b.toNat % 1 <<< 51 < 2 ^ 63 := by
    simp only [Nat.shiftLeft_eq]; omega
  have h51 : (quietNaN b).getLsbD 51 = true := by
    rw [BitVec.getLsbD, quietNaN, toNat_pack _ _ hm, Nat.testBit_eq_decide_div_mod_eq]
    simp only [Nat.shiftLeft_eq, decide_eq_true_eq]
    split <;> omega
  have : infMag < mag (quietNaN b) := by
    rw [quietNaN, mag_pack _ _ hm]
    simp only [infMag, Nat.shiftLeft_eq]; omega
  simp [isQuietNaN, isNaN, this, h51]

end B64
end Sys2Proof.Machine
end

