-- ==== Sys2Proof/Laws/PerInstr.lean ====
section
/-! SUPPORT. The family of lemmas made per instruction: an operation that the decoder gives is well formed. -/

namespace Sys2Proof.Laws

/-- Wherever the decoder gives this instruction, it is well formed. -/
def DecodedWellFormed.Statement (i : Instr) : Prop := ∀ e, decode e = .ok i → i.wellFormed = true

theorem DecodedWellFormed.construct (record : Record) : DecodedWellFormed.Statement (.construct record) :=
  fun e h => decode_wellFormed e _ h
theorem DecodedWellFormed.reset : DecodedWellFormed.Statement .reset := fun e h => decode_wellFormed e _ h
theorem DecodedWellFormed.nop : DecodedWellFormed.Statement .nop := fun e h => decode_wellFormed e _ h
theorem DecodedWellFormed.process (sample : Word) : DecodedWellFormed.Statement (.process sample) :=
  fun e h => decode_wellFormed e _ h
theorem DecodedWellFormed.rdtap (idx : Nat) : DecodedWellFormed.Statement (.rdtap idx) :=
  fun e h => decode_wellFormed e _ h
theorem DecodedWellFormed.rdgain : DecodedWellFormed.Statement .rdgain := fun e h => decode_wellFormed e _ h
theorem DecodedWellFormed.rdsr (idx : Nat) : DecodedWellFormed.Statement (.rdsr idx) :=
  fun e h => decode_wellFormed e _ h
theorem DecodedWellFormed.rdcfg (idx : Nat) : DecodedWellFormed.Statement (.rdcfg idx) :=
  fun e h => decode_wellFormed e _ h
theorem DecodedWellFormed.illegal67 (op : BitVec 4) : DecodedWellFormed.Statement (.illegal67 op) :=
  fun e h => decode_wellFormed e _ h
theorem DecodedWellFormed.illegal8F (op : BitVec 4) : DecodedWellFormed.Statement (.illegal8F op) :=
  fun e h => decode_wellFormed e _ h

end Sys2Proof.Laws
end

