-- ==== Sys2Proof/Laws/Result.lean ====
section
/-! SUPPORT. Results that differ in the draws of their NaNs only: one lemma for each operation and for the output of
PROCESS (`spec/00_scope.md` R12, `spec/93_implementation_defined.md` I3). -/

namespace Sys2Proof.Machine
namespace B64

@[simp] theorem sameResult_refl (a : Word) : SameResult a a := .inl rfl

/-- An operation whose result on a NaN operand is its draw, and whose other results depend on the draw in being it,
keeps `SameResult` from operands to results. -/
theorem sameResult_of_draw (f : Word → Word → Word → Word)
    (hn : ∀ q a b, isNaN a = true ∨ isNaN b = true → f q a b = q)
    (hd : ∀ q q' a b, f q a b = f q' a b ∨ (f q a b = q ∧ f q' a b = q'))
    {q q' a a' b b' : Word} (hq : isNaN q = true) (hq' : isNaN q' = true)
    (ha : SameResult a a') (hb : SameResult b b') : SameResult (f q a b) (f q' a' b') := by
  rcases ha with rfl | ⟨h, h'⟩
  · rcases hb with rfl | ⟨h, h'⟩
    · rcases hd q q' a b with h | ⟨h, h'⟩
      · exact .inl h
      · rw [h, h']; exact .inr ⟨hq, hq'⟩
    · rw [hn q a b (.inr h), hn q' a b' (.inr h')]; exact .inr ⟨hq, hq'⟩
  · rw [hn q a b (.inl h), hn q' a' b' (.inl h')]; exact .inr ⟨hq, hq'⟩

section
variable {q q' a a' b b' : Word} (hq : isNaN q = true) (hq' : isNaN q' = true)
  (ha : SameResult a a') (hb : SameResult b b')
include hq hq' ha hb

theorem sameResult_fadd : SameResult (fadd q a b) (fadd q' a' b') :=
  sameResult_of_draw fadd (fun q a b h => by simp [fadd, h])
    (fun q q' a b => by unfold fadd; split_ifs <;> simp) hq hq' ha hb

theorem sameResult_fmul : SameResult (fmul q a b) (fmul q' a' b') :=
  sameResult_of_draw fmul (fun q a b h => by simp [fmul, h])
    (fun q q' a b => by unfold fmul; split_ifs <;> simp) hq hq' ha hb

theorem sameResult_fdiv : SameResult (fdiv q a b) (fdiv q' a' b') :=
  sameResult_of_draw fdiv (fun q a b h => by simp [fdiv, h])
    (fun q q' a b => by unfold fdiv; split_ifs <;> simp) hq hq' ha hb

end
end B64

/-- The accumulator, whatever the draws (R113). -/
theorem sameResult_foldl {q q' : Word} (hq : B64.isNaN q = true) (hq' : B64.isNaN q' = true) :
    ∀ {ps ps' : List Word} {a a' : Word}, List.Forall₂ B64.SameResult ps ps' → B64.SameResult a a' →
      B64.SameResult (ps.foldl (B64.fadd q) a) (ps'.foldl (B64.fadd q') a') := by
  intro ps ps' a a' h
  induction h generalizing a a' with
  | nil => exact id
  | cons h _ ih => exact fun ha => ih (B64.sameResult_fadd hq hq' ha h)

/-- The multiplier array, whatever the draws (R112). -/
theorem sameResult_products {q q' : Word} (hq : B64.isNaN q = true) (hq' : B64.isNaN q' = true) :
    ∀ sr taps : List Word, List.Forall₂ B64.SameResult (products (b64 q) sr taps) (products (b64 q') sr taps)
  | [], _ => .nil
  | _ :: _, [] => .nil
  | _ :: sr, _ :: taps =>
    .cons (B64.sameResult_fmul hq hq' (.inl rfl) (.inl rfl)) (sameResult_products hq hq' sr taps)

/-- What PROCESS answers on a given register is the same result whatever the draws (R110). -/
theorem sameResult_outputValue {q q' : Word} (hq : B64.isNaN q = true) (hq' : B64.isNaN q' = true) (i : Instance)
    (sr : List Word) : B64.SameResult (outputValue (b64 q) i sr) (outputValue (b64 q') i sr) := by
  have h := sameResult_foldl hq hq' (sameResult_products hq hq' sr i.taps) (B64.sameResult_refl B64.zero)
  unfold outputValue normalise
  split
  · exact B64.sameResult_fdiv hq hq' h (.inl rfl)
  · exact h

/-- Receiving the same thing is the same result. -/
@[simp] theorem HostOutput.sameResult_refl (o : HostOutput) : o.SameResult o := by
  cases o <;> simp [HostOutput.SameResult]

end Sys2Proof.Machine
end

