-- ==== Sys2Proof/Laws/Sine.lean ====
section
/-! SUPPORT. What the power series of `Machine/Sine.lean` is worth: `sineApprox k` is within `sineError k` of the sine,
at every precision `k`. -/

namespace Sys2Proof.Machine.B64

open Complex in
/-- The first `2 n` terms of the exponential series at `x * I` have the first `n` terms of the sine's as their imaginary
part. -/
theorem im_expSeries (x : ℚ) (n : ℕ) :
    (∑ j ∈ Finset.range (2 * n), ((x : ℂ) * I) ^ j / (j.factorial : ℂ)).im = (sineSeries x n : ℝ) := by
  induction n with
  | zero => simp [sineSeries]
  | succ n ih =>
    have hI : (I : ℂ) ^ (2 * n) = ((-1 : ℝ) ^ n : ℝ) := by rw [pow_mul, I_sq]; push_cast; rfl
    have even : ((x : ℂ) * I) ^ (2 * n) / ((2 * n).factorial : ℂ) =
        (((x : ℝ) ^ (2 * n) * (-1) ^ n / (2 * n).factorial : ℝ) : ℂ) := by
      rw [mul_pow, hI]; push_cast; rfl
    have odd : ((x : ℂ) * I) ^ (2 * n + 1) / ((2 * n + 1).factorial : ℂ) =
        (((-1 : ℝ) ^ n * (x : ℝ) ^ (2 * n + 1) / (2 * n + 1).factorial : ℝ) : ℂ) * I := by
      rw [mul_pow, pow_succ I, hI]; push_cast; ring
    rw [show 2 * (n + 1) = 2 * n + 1 + 1 by ring, Finset.sum_range_succ, Finset.sum_range_succ, add_im, add_im, ih,
      even, odd, ofReal_im, im_ofReal_mul, I_im, sineSeries]
    push_cast; ring

/-- A term of the exponential series at `x <= c`, far out. -/
theorem pow_div_factorial_le (c k : ℕ) (x : ℝ) (h0 : 0 ≤ x) (hx : x ≤ c) :
    x ^ (4 * c + k) / (4 * c + k).factorial ≤ 4 ^ c / 4 ^ k := by
  have h1 : (c : ℝ) ^ (4 * c) / (4 * c).factorial ≤ 4 ^ c := by
    refine (Real.pow_div_factorial_le_exp _ (Nat.cast_nonneg c) _).trans ?_
    rw [← Real.exp_one_pow]
    exact pow_le_pow_left₀ (Real.exp_pos 1).le (by linarith [Real.exp_one_lt_d9]) c
  have h2 : ((4 * c).factorial : ℝ) * (4 * c + 1) ^ k ≤ (4 * c + k).factorial := by
    exact_mod_cast Nat.factorial_mul_pow_le_factorial
  have hpos : (0 : ℝ) < (4 * c).factorial * (4 * c + 1) ^ k := by positivity
  calc x ^ (4 * c + k) / (4 * c + k).factorial
      ≤ (c : ℝ) ^ (4 * c + k) / ((4 * c).factorial * (4 * c + 1) ^ k) := by gcongr
    _ = (c : ℝ) ^ (4 * c) / (4 * c).factorial * (c / (4 * c + 1)) ^ k := by
        rw [pow_add, div_pow]; field_simp
    _ ≤ 4 ^ c * (1 / 4) ^ k := by
        refine mul_le_mul h1 (pow_le_pow_left₀ (by positivity) ?_ k) (by positivity) (by positivity)
        rw [div_le_div_iff₀ (by positivity) (by norm_num)]; linarith
    _ = 4 ^ c / 4 ^ k := by rw [one_div, inv_pow]; rfl

/-- The error bound as a real number: it is halved with each bit of precision. -/
theorem sineError_real (k : ℕ) : ((sineError k : ℚ) : ℝ) = 1 / 2 ^ (1080 + k) := by
  simp [sineError, Nat.shiftLeft_eq]

/-- `sineApprox k` is within `sineError k` of the sine: all that a proof needs of the power series. -/
theorem abs_sineApprox_sub_sin_le (k : ℕ) (x : ℚ) (hx : 0 ≤ x) :
    |((sineApprox k x : ℚ) : ℝ) - Real.sin x| ≤ ((sineError k : ℚ) : ℝ) := by
  obtain ⟨c, hc⟩ : ∃ c, c = ⌈x⌉.toNat := ⟨_, rfl⟩
  have hxc : (x : ℝ) ≤ c := by
    have : (x : ℚ) ≤ c := by
      rw [hc]
      refine (Int.le_ceil x).trans ?_
      exact_mod_cast Int.self_le_toNat _
    exact_mod_cast this
  have hx0 : (0 : ℝ) ≤ x := by exact_mod_cast hx
  obtain ⟨n, hn⟩ : ∃ n, n = 4 * c + 600 + k := ⟨_, rfl⟩
  have hnorm : ‖(x : ℂ) * Complex.I‖ = x := by
    rw [norm_mul, Complex.norm_I, mul_one]
    simp [abs_of_nonneg hx0]
  have hsmall : ‖(x : ℂ) * Complex.I‖ / (2 * n).succ ≤ 1 / 2 := by
    rw [hnorm, div_le_div_iff₀ (by positivity) (by norm_num)]
    have : (c : ℝ) * 2 ≤ ((2 * n).succ : ℝ) := by exact_mod_cast (by omega : c * 2 ≤ (2 * n).succ)
    linarith
  have hb := Complex.exp_bound' hsmall
  have him := (Complex.abs_im_le_norm _).trans hb
  rw [Complex.sub_im, im_expSeries, hnorm] at him
  have hsin : (Complex.exp ((x : ℂ) * Complex.I)).im = Real.sin x := by
    have := Complex.exp_ofReal_mul_I_im (x : ℝ)
    simpa using this
  rw [hsin] at him
  rw [abs_sub_comm, sineApprox, ← hc, ← hn, sineError_real]
  refine him.trans ?_
  have h := pow_div_factorial_le c (4 * c + 1200 + 2 * k) x hx0 hxc
  rw [show 4 * c + (4 * c + 1200 + 2 * k) = 2 * n by omega] at h
  calc (x : ℝ) ^ (2 * n) / (2 * n).factorial * 2 ≤ 4 ^ c / 4 ^ (4 * c + 1200 + 2 * k) * 2 := by gcongr
    _ ≤ 1 / 2 ^ (1080 + k) := by
      rw [div_mul_eq_mul_div, div_le_div_iff₀ (by positivity) (by positivity), one_mul,
        show (4 : ℝ) = 2 ^ 2 by norm_num, ← pow_mul, ← pow_mul, ← pow_succ, ← pow_add]
      exact pow_le_pow_right₀ (by norm_num) (by omega)

/-- What `SIN_ULP` can be: a number that every sine within one unit in the last place meets, or one that
`Config.sineRaw` is seen to meet. -/
theorem sinUlp_cases : 1 ≤ sinUlp ∨ sineMeets sinUlp = true := by
  unfold sinUlp
  split_ifs <;> simp_all

end Sys2Proof.Machine.B64
end

