-- ==== Sys2Proof/Tests/Slice0.lean ====
section
/-! SUPPORT. Tests. Expected words are those of `spec/95_test_vectors.md` (the vector is named at each test) or are
worked out from the rule named. The second part gives, for each statement with hypotheses, states and operands that meet
them. -/

namespace Sys2Proof.Tests
open Sys2Proof.Machine

/-! ## Small states -/

/-- What the host has received after an outcome. -/
def outputsOf : Host.Outcome State Fault Refusal → Option (List HostOutput)
  | .next t => some t.outputs
  | _ => none

/-- The instance after an outcome. -/
def instOf : Host.Outcome State Fault Refusal → Option Instance
  | .next t => t.inst
  | _ => none

/-- The shift register after an outcome. -/
def srOf (o : Host.Outcome State Fault Refusal) : Option (List Word) := (instOf o).map (·.sr)

/-- The three-tap instance of vectors S1 and S2, with gain `g`, and a register. -/
def threeTaps (g : Word) (sr : List Word) : Instance :=
  { benchInstance with
    numTaps := 3
    gain := g
    taps := [0x3FE0000000000000#64, 0x3FD0000000000000#64, 0x3FD0000000000000#64]
    sr := sr }

/-- A state with an instance and nothing else. -/
def stateWith (i : Instance) : State := { State.reset with inst := some i }

/-- A response word as the 17 hexadecimal digits of the vectors. -/
def rsp (n : Nat) : HostOutput := .response (BitVec.ofNat 66 n)

/-- The record of a CFGREC word. -/
def recordOf (n : Nat) : Record := recordFields (BitVec.ofNat 233 n)

/-- `HighPass, N=3, Fs=+inf, f0=10` (T14, P6): a designed instance without a sine other than of zeros. -/
def delayInstance (sr : List Word) : Instance where
  kind := 1
  numTaps := 3
  fs := 0x7FF0000000000000#64
  f0 := 0x4024000000000000#64
  f1 := 0
  lambda := 0
  phi := 0
  gain := 0x3FF0000000000000#64
  normalize := 1
  taps := [0x8000000000000000#64, 0x3FF0000000000000#64, 0x8000000000000000#64]
  sr := sr

/-! ## Well-formedness: an ill-formed term for each check -/

theorem test_wf_refuses_rdtap_index : Instr.wellFormed (.rdtap (2 ^ 64)) = false := by decide
theorem test_wf_refuses_rdsr_index : Instr.wellFormed (.rdsr (2 ^ 64)) = false := by decide
theorem test_wf_refuses_rdcfg_index : Instr.wellFormed (.rdcfg (2 ^ 64)) = false := by decide
theorem test_wf_refuses_illegal67_op : Instr.wellFormed (.illegal67 5) = false := by decide
theorem test_wf_refuses_illegal8F_op : Instr.wellFormed (.illegal8F 7) = false := by decide
theorem test_wf_accepts_last_index : Instr.wellFormed (.rdtap (2 ^ 64 - 1)) = true := by decide

/-! ## Decoding: one word of each row, bit by bit from R62, R66, R67 (and section 2.7) -/

theorem test_decode_nop_junk_arg : decodeTableWord 72 0x0DEADBEEF00000001 = some .nop := by decide
theorem test_decode_process : decodeTableWord 72 0x1C010000000000000 = some (.process 0xC010000000000000#64) := by decide
theorem test_decode_rdtap : decodeTableWord 72 0x20000000000000005 = some (.rdtap 5) := by decide
theorem test_decode_rdgain : decodeTableWord 72 0x3123456789ABCDEF0 = some .rdgain := by decide
theorem test_decode_rdsr : decodeTableWord 72 0x40000000000000002 = some (.rdsr 2) := by decide
theorem test_decode_rdcfg : decodeTableWord 72 0x50000000000000007 = some (.rdcfg 7) := by decide
theorem test_decode_illegal6 : decodeTableWord 72 0x60000000000000000 = some (.illegal67 6) := by decide
theorem test_decode_illegal8 : decodeTableWord 72 0x80000000000000000 = some (.illegal8F 8) := by decide
theorem test_decode_reset : decodeTableWord 8 1 = some .reset := by decide
theorem test_decode_pin_low : decodeTableWord 8 0 = none := by decide
theorem test_decode_beyond_port : decodeTableWord 72 0x100000000000000000 = none := by decide
/-- V17: `kind=3, numTaps=0, Fs=-1, f0=-1, f1=-2, normalize=1`. -/
theorem test_decode_construct :
    decodeTableWord 240 0x10300000000BFF0000000000000BFF0000000000000C000000000000000 =
      some (.construct ⟨1, 3, 0, 0xBFF0000000000000#64, 0xBFF0000000000000#64, 0xC000000000000000#64⟩) := by decide

/-! ## Arithmetic (R12 to R14), worked out by hand or from section 2 -/

/-- `1 + 2^-53` is a tie and goes to even. -/
theorem test_fadd_tie_to_even :
    B64.fadd 0 0x3FF0000000000000#64 0x3CA0000000000000#64 = 0x3FF0000000000000#64 := by decide +kernel
/-- The largest finite value doubled overflows to infinity. -/
theorem test_fadd_overflow :
    B64.fadd 0 0x7FEFFFFFFFFFFFFF#64 0x7FEFFFFFFFFFFFFF#64 = 0x7FF0000000000000#64 := by decide +kernel
/-- Half of the smallest normal value is a subnormal, not zero. -/
theorem test_fmul_subnormal_kept :
    B64.fmul 0 0x0010000000000000#64 0x3FE0000000000000#64 = 0x0008000000000000#64 := by decide +kernel
/-- P1, step 1: `fdiv(taps[0], gain)` of T1. -/
theorem test_fdiv_P1_step1 :
    B64.fdiv 0 0x3F9425100B117EA1#64 0x3FCBF9B17A8F69AB#64 = 0x3FB70AF9E0DF58FB#64 := by decide +kernel
/-- T1: `lambda` for `Fs=1000, f0=10`. -/
theorem test_lambda_T1 :
    angle (b64 0) 0x4024000000000000#64 0x408F400000000000#64 = 0x3FB015BF9217271A#64 := by decide +kernel
/-- R14 with R11: the value of `PI`. -/
theorem test_pi_units : B64.unitsMag B64.pi = 0x1921FB54442D18 <<< 1023 := by decide

/-! ## CONSTRUCT -/

/-- T2, with `withFetchWord`'s instance written out: what CONSTRUCT makes of the record is that instance. -/
theorem test_construct_T2 :
    instOf (exec (.construct (recordOf 0x1000000000140100000000000003FF00000000000000000000000000000)) State.reset) =
      some benchInstance := by decide +kernel
/-- T14, P6: the exact unit delay. -/
theorem test_construct_T14 :
    instOf (exec (.construct (recordOf 0x101000000037FF000000000000040240000000000000000000000000000)) State.reset) =
      some (delayInstance [0, 0, 0]) := by decide +kernel
/-- V12, V17: 1001 taps, and many violations at once. -/
theorem test_construct_V12_V17 :
    outputsOf (exec (.construct (recordOf 0x100000003E9408F40000000000040240000000000000000000000000000)) State.reset) =
        some [.invalidParameter .numTapsInRange] ∧
      outputsOf (exec (.construct (recordOf 0x10300000000BFF0000000000000BFF0000000000000C000000000000000)) State.reset) =
        some [.invalidParameter .fsPositive] := by decide +kernel

/-- The code that validation reports (0 for none), for literal words. -/
def codeOf (kind : Nat) (n : Int) (fs f0 f1 : Word) : Nat :=
  match validate (b64 0x7FF8000000000000#64) kind n fs f0 f1 with
  | .error c => constraintCode c
  | .ok _ => 0

/-- V3, V5, V7, V9, V10, V14, V15, V20 to V24 of section 2.1, with 1000 = `0x408F4000...`. -/
theorem test_validation_vectors :
    codeOf 2 11 0x408F400000000000#64 0x4069000000000000#64 0x4059000000000000#64 = 2 ∧
    codeOf 0 11 0x408F400000000000#64 0 0 = 3 ∧
    codeOf 0 11 0x408F400000000000#64 0x407F400000000000#64 0 = 4 ∧
    codeOf 2 11 0x408F400000000000#64 0xC034000000000000#64 0xC024000000000000#64 = 3 ∧
    codeOf 2 11 0x408F400000000000#64 0x4059000000000000#64 0x407F400000000000#64 = 6 ∧
    codeOf 0 (-1) 0x408F400000000000#64 0x4024000000000000#64 0 = 7 ∧
    codeOf 3 11 0x408F400000000000#64 0x4024000000000000#64 0 = 8 ∧
    codeOf 3 0 0x408F400000000000#64 0x4024000000000000#64 0 = 7 ∧
    codeOf 0 11 0x7FF8000000000000#64 0x4024000000000000#64 0 = 1 ∧
    codeOf 0 11 0x408F400000000000#64 0x7FF8000000000000#64 0 = 3 ∧
    codeOf 0 11 0x408F400000000000#64 0x4024000000000000#64 0x7FF8000000000000#64 = 2 ∧
    codeOf 0 1000 0x408F400000000000#64 0x4024000000000000#64 0x8000000000000000#64 = 0 := by decide +kernel

/-! ## PROCESS -/

/-- S2, third sample: output 1.125, register [3, 2, 1]. -/
theorem test_process_S2_step3 :
    let s := stateWith (threeTaps 0x4000000000000000#64 [0x4000000000000000#64, 0x3FF0000000000000#64, 0])
    outputsOf (exec (.process 0x4008000000000000#64) s) = some [rsp 0x03FF2000000000000] ∧
    srOf (exec (.process 0x4008000000000000#64) s) =
      some [0x4008000000000000#64, 0x4000000000000000#64, 0x3FF0000000000000#64] := by decide +kernel
/-- P6, third sample: the unit delay answers 2.0. -/
theorem test_process_P6_step3 :
    outputsOf (exec (.process 0x4008000000000000#64)
      (stateWith (delayInstance [0x4000000000000000#64, 0x3FF0000000000000#64, 0]))) =
      some [rsp 0x04000000000000000] := by decide +kernel

/-! ## Accessors, errors, RESET -/

theorem test_nop : outputsOf (exec .nop (stateWith benchInstance)) = some [rsp 0] := by decide
/-- P3 steps 6, 7, 8, 9. -/
theorem test_reads_P3 :
    outputsOf (exec (.rdtap 0) (stateWith benchInstance)) = some [rsp 0x03FE0000000000000] ∧
    outputsOf (exec .rdgain (stateWith benchInstance)) = some [rsp 0x03FE0000000000000] ∧
    outputsOf (exec (.rdcfg 8) (stateWith benchInstance)) = some [rsp 1] ∧
    outputsOf (exec (.rdcfg 9) (stateWith benchInstance)) = some [rsp 0x3E8] := by decide
/-- Section 2.4: the first index beyond each space. -/
theorem test_bad_index :
    outputsOf (exec (.rdtap 1) (stateWith benchInstance)) = some [rsp 0x20000000000000000] ∧
    outputsOf (exec (.rdsr 1) (stateWith benchInstance)) = some [rsp 0x20000000000000000] ∧
    outputsOf (exec (.rdcfg 10) (stateWith benchInstance)) = some [rsp 0x20000000000000000] := by decide
/-- R136: the most recent sample at index 0. -/
theorem test_rdsr_order :
    outputsOf (exec (.rdsr 2) (stateWith (threeTaps 0 [3, 2, 1]))) = some [rsp 1] := by decide
/-- R25: `NUMTAPS` is sign-extended (a value no instance has), `KIND` zero-extended. -/
theorem test_rdcfg_extensions :
    outputsOf (exec (.rdcfg 1) (stateWith { benchInstance with numTaps := -1 })) =
      some [rsp 0x0FFFFFFFFFFFFFFFF] ∧
    outputsOf (exec (.rdcfg 0) (stateWith { benchInstance with kind := 0xFF })) = some [rsp 0xFF] := by decide
/-- Section 2.5. -/
theorem test_illegal :
    outputsOf (exec (.illegal67 7) (stateWith benchInstance)) = some [rsp 0x10000000000000000] ∧
    outputsOf (exec (.illegal8F 15) (stateWith benchInstance)) = some [rsp 0x10000000000000000] := by decide
/-- Z1: the register is cleared, the taps stay. -/
theorem test_reset_Z1 :
    instOf (exec .reset (stateWith (threeTaps 7 [4, 3, 2]))) = some (threeTaps 7 [0, 0, 0]) := by decide

/-! ## Steps -/

/-- From reset, an illegal record and then a good one: the error is reported, and the retry constructs (R154, P5). -/
theorem test_step_construct_retry :
    let s := { State.reset with inputs := [.elaborate (BitVec.ofNat 233 0), .edge 0 none] }
    outputsOf (step s) = some [.invalidParameter .fsPositive] ∧ instOf (step s) = none := by decide +kernel
/-- `rst` and a command on one edge: RESET happens, the command is not accepted. -/
theorem test_step_rst_wins :
    let s := { stateWith (threeTaps 7 [4, 3, 2]) with inputs := [.edge 1 (some 0x13FF0000000000000#68)] }
    srOf (step s) = some [0, 0, 0] ∧ outputsOf (step s) = some [] := by decide
/-- `withFetchWord` on the reset state: the next step runs the word (here RDGAIN on T2's instance). -/
theorem test_fetchWord_rdgain :
    outputsOf (step (State.reset.withFetchWord 72 0x30000000000000000)) = some [rsp 0x03FE0000000000000] := by decide

/-! ## The hypotheses of the statements can be met

One theorem for each statement with hypotheses, named after it; where a statement has several clauses, a value for
each, at the ends of its range. -/

/-- A quiet NaN for the draws of a witness. -/
def someNaN : Word := 0x7FF8000000000000#64

/-- 1.0, for short. -/
def one : Word := 0x3FF0000000000000#64

/-- The outcome is a next state. -/
def isNext : Host.Outcome State Fault Refusal → Bool
  | .next _ => true
  | _ => false

theorem exists_next (o : Host.Outcome State Fault Refusal) (h : isNext o = true) : ∃ t, o = .next t := by
  cases o with
  | next t => exact ⟨t, rfl⟩
  | fault _ => cases h
  | refused _ => cases h

/-- The state with `benchInstance`. -/
def benchState : State := stateWith benchInstance

/-- The state with the three-tap delay and a register. -/
def delayState (sr : List Word) : State := stateWith (delayInstance sr)

/-- `benchInstance` (T2) is a designed instance. -/
theorem bench_designed : benchInstance.Designed :=
  ⟨.lowPass, fun _ => someNaN, fun _ => (by decide : B64.isQuietNaN someNaN = true), by decide +kernel,
    by decide +kernel, by decide +kernel, by decide +kernel, by decide +kernel, by decide⟩

/-- The delay (T14) is a designed instance, with any three register entries. -/
theorem delay_designed (a b c : Word) : (delayInstance [a, b, c]).Designed :=
  ⟨.highPass, fun _ => someNaN, fun _ => (by decide : B64.isQuietNaN someNaN = true),
    (by decide +kernel : validate (b64 someNaN) (delayInstance []).kind.toNat (delayInstance []).numTaps.toInt
      (delayInstance []).fs (delayInstance []).f0 (delayInstance []).f1 = .ok .highPass),
    (by decide +kernel : (delayInstance []).lambda = angle (b64 someNaN) (delayInstance []).f0 (delayInstance []).fs),
    (by decide +kernel : (delayInstance []).phi = angle (b64 someNaN) (delayInstance []).f1 (delayInstance []).fs),
    (by decide +kernel : (delayInstance []).taps = tapVector (fun _ => b64 someNaN) .highPass (delayInstance []).N
      (delayInstance []).lambda (delayInstance []).phi),
    (by decide +kernel : (delayInstance []).gain = gainSum (b64 someNaN) (delayInstance []).taps), rfl⟩

theorem witness_DecodeEncodeRoundTrip :
    Instr.wellFormed (.rdtap (2 ^ 64 - 1)) = true ∧ Instr.wellFormed (.illegal67 6) = true ∧
      Instr.wellFormed (.illegal8F 8) = true := by decide

theorem witness_CommandDecodingFollowsOpcodeMap :
    BitVec.extractLsb' 64 4 0x00000000000000000#68 = BitVec.extractLsb' 64 4 0x0FFFFFFFFFFFFFFFF#68 ∧
      BitVec.extractLsb' 64 4 0x0FFFFFFFFFFFFFFFF#68 = 0#4 ∧
      BitVec.extractLsb' 64 4 0x30000000000000000#68 = BitVec.extractLsb' 64 4 0x3FFFFFFFFFFFFFFFF#68 ∧
      BitVec.extractLsb' 64 4 0x30000000000000000#68 = 3#4 := by decide

theorem witness_StepExecutesDecodedInstruction :
    decode (.command 0x20000000000000005#68) = .ok (.rdtap 5) ∧ decode (.pin 1) = .ok .reset ∧
      ({ benchState with inputs := [inputOf (.command 0x20000000000000005#68)] } : State).inputs =
        inputOf (.command 0x20000000000000005#68) :: [] := by decide

theorem witness_ResetPinWinsOverCommand :
    ({ benchState with inputs := [.edge 1 (some 0#68)] } : State).inputs = .edge 1 (some 0#68) :: [] := by decide

theorem witness_IdleEngineKeepsItsState :
    ({ benchState with inputs := [.edge 0 none] } : State).inputs = .edge 0 none :: [] ∧ benchState.inputs = [] := by
  decide

/-- A numerics record whose comparisons let check 5 fail first: under B64 there is no such case. -/
theorem witness_CodeFiveIsNeverReported :
    let num : Num Word := { b64 someNaN with fgt := fun a _ => a != 5#64 }
    num.fgt one num.zero = true ∧ num.flt 3 5 = true ∧ num.fgt 3 num.zero = true ∧
      num.flt 3 (num.fdiv one num.two) = true ∧ num.fne 5 num.zero = true ∧ num.fgt 5 num.zero = false := by
  decide +kernel

/-- T2's record satisfies every constraint; `numTaps = 1001` first violates number 7. -/
theorem witness_ConstructCompletes :
    State.reset.inst = none ∧
    (∀ c, Satisfied (b64 someNaN) 0 1 benchInstance.fs benchInstance.f0 benchInstance.f1 c) ∧
    FirstViolated (b64 someNaN) 0 1001 benchInstance.fs benchInstance.f0 benchInstance.f1 .numTapsInRange := by
  refine ⟨rfl, fun c => ?_, ?_, fun c h => ?_⟩
  · cases c <;> simp only [Satisfied] <;> decide +kernel
  · simp only [Satisfied]; decide
  · cases c <;> simp only [Satisfied] <;> first | decide +kernel | (exfalso; revert h; decide)

theorem witness_OffsetsAreExact : 1000 ≤ 1000 ∧ 999 < 1000 ∧ 2 * 499 + 1 = 999 ∧ 999 ≤ 1000 := by decide

theorem witness_ZeroOffsetBranchOnlyAtCentre : 499 < 999 ∧ 2 * 499 + 1 = 999 ∧ 2 * 0 + 1 ≠ 1000 := by decide

theorem witness_CentreTapIsTheLimit : 2 * 499 + 1 ≤ 1000 ∧ (4 : ℝ) ≠ 0 := ⟨by decide, by norm_num⟩

/-- At the first tap of the largest even `N`, and at a centre tap. -/
theorem witness_TapsAreSymmetricUnderB64 :
    B64.isNaN someNaN = true ∧ B64.isNaN (tap (b64 someNaN) .bandPass 0 1000 0 0) = false ∧
      B64.isNaN (tap (b64 someNaN) .lowPass 1 3 one 0) = false := by decide +kernel

theorem witness_TapsAreSymmetricUnderReal : 0 < 1 ∧ 999 < 1000 := by decide

theorem witness_GainsUnderReal : 3 % 2 = 1 ∧ 4 % 2 = 0 := by decide

theorem witness_BandPassWithoutUpperEdge :
    B64.isNaN someNaN = true ∧ B64.isNaN (tap (b64 someNaN) .lowPass 999 1000 0 B64.zero) = false ∧
      B64.isNaN (tap (b64 someNaN) .lowPass 1 3 one B64.zero) = false := by decide +kernel

/-- The delay has a centre tap (index 1 of 3) and two others. -/
theorem witness_InfiniteSamplingRateDesign :
    (delayInstance [0, 0, 0]).Designed ∧ (delayInstance [0, 0, 0]).fs = 0x7FF0000000000000#64 ∧
      B64.isFinite (B64.fmul someNaN B64.pi (delayInstance []).f0) = true ∧
      B64.isFinite (B64.fmul someNaN B64.pi (delayInstance []).f1) = true ∧
      2 * 1 + 1 = (delayInstance []).N ∧ (delayInstance []).taps.length = 3 :=
  ⟨delay_designed 0 0 0, rfl, by decide +kernel, by decide +kernel, by decide, rfl⟩

theorem witness_ProcessEffect : benchState.inst = some benchInstance ∧ benchInstance.wf = true ∧
    (delayInstance [1, 2, 3]).wf = true ∧ 2 < (delayInstance []).N := by decide

/-- Fewer samples than entries, and more. -/
theorem witness_RegisterHoldsLatestSamples :
    (delayState [0, 0, 0]).inst = some (delayInstance [0, 0, 0]) ∧ (delayInstance [0, 0, 0]).wf = true ∧
      (delayInstance [0, 0, 0]).sr = List.replicate (delayInstance [0, 0, 0]).N B64.zero ∧
      0 < min [one].length 3 ∧ min [one].length 3 ≤ 2 ∧ 2 < min [one, one, one, one].length 3 := by decide

theorem witness_RegisterDependsOnSamplesSinceReset :
    (delayInstance [0, 0, 0]).wf = true ∧
      (∀ op ∈ [Instr.process one, .reset, .process 2, .rdsr 0, .process 3], isConstruct op = false) := by decide

/-- Taps of both kinds: zeros at the ends, a non-zero in the middle. -/
theorem witness_ImpulseResponseEqualsTaps :
    (delayInstance [0, 0, 0]).wf = true ∧ (∀ t ∈ (delayInstance [0, 0, 0]).taps, B64.isFinite t = true) ∧
      B64.isZero ((delayInstance []).taps.getD 0 0) = true ∧
      B64.isZero ((delayInstance []).taps.getD 1 0) = false :=
  ⟨by decide, fun t h => List.all_eq_true.mp
    (by decide : (delayInstance [0, 0, 0]).taps.all B64.isFinite = true) t h, by decide, by decide⟩

theorem witness_EvictedSamplesAreForgotten :
    (delayState [1, 2, 3]).inst = some (delayInstance [1, 2, 3]) ∧ (delayInstance [1, 2, 3]).wf = true ∧
      (delayState [someNaN, 0, 0]).inst = some { delayInstance [1, 2, 3] with sr := [someNaN, 0, 0] } ∧
      [someNaN, 0, 0].length = (delayInstance [1, 2, 3]).N ∧
      (delayInstance []).N ≤ [one, one, one].length := by decide

/-- The NaN as the new sample, and as the oldest entry that stays. -/
theorem witness_NaNInRegisterGivesNaN :
    (∃ w ∈ shiftIn 3 someNaN [0, 0, 0], B64.isNaN w = true) ∧
      (∃ w ∈ shiftIn 3 0 [0, someNaN, 0], B64.isNaN w = true) ∧ (delayInstance [0, someNaN, 0]).wf = true :=
  ⟨⟨someNaN, by decide, by decide⟩, ⟨someNaN, by decide, by decide⟩, by decide⟩

theorem witness_NormalisationByZeroGain :
    B64.isZero 0x8000000000000000#64 = true ∧ B64.isNaN someNaN = true ∧ B64.isZero 0#64 = true ∧
      B64.isNaN one = false ∧ B64.isZero one = false := by decide

/-- Both values of `NORMALIZE` occur. -/
theorem witness_OnesGiveUnityResponse :
    (delayInstance [one, one, one]).Designed ∧
      shiftIn (delayInstance []).N B64.one [one, one, one] = List.replicate (delayInstance []).N B64.one ∧
      B64.isFinite (delayInstance []).gain = true ∧ B64.isZero (delayInstance []).gain = false ∧
      ({ delayInstance [one, one, one] with normalize := 0 } : Instance).Designed :=
  ⟨delay_designed one one one, by decide, by decide, by decide, delay_designed one one one⟩

theorem witness_ConvolutionUnderReal : 0 < [(1 : ℝ)].length := by simp

theorem witness_ConstantInputUnderReal : gainSum real [(1 : ℝ)] ≠ 0 := by
  simp [gainSum, real]

theorem witness_NegatedTapsNormaliseToTheSameOutputs :
    1000 % 2 = 0 ∧ 999 < 1000 ∧ B64.isNaN someNaN = true ∧ B64.isZero (gainSum (b64 someNaN) [one, one]) = false := by
  decide +kernel

/-- For RDTAP, RDSR and BAD_INDEX: the last legal index and the first illegal one; with `benchState` for the rest. -/
theorem witness_RdtapAnswers_RdsrAnswers_BadIndexAnswers :
    benchState.inst = some benchInstance ∧ benchInstance.wf = true ∧ 0 < benchInstance.N ∧ benchInstance.N ≤ 1 ∧
      10 ≤ 10 ∧ ∃ t, core.run 1 { benchState with inputs := [.edge 0 (some 0x13FF0000000000000#68)] } = .next t :=
  ⟨by decide, by decide, by decide, by decide, by decide, exists_next _ rfl⟩

/-- Also a run, and the answer of the last configuration register. -/
theorem witness_RdgainAnswers_RdcfgAnswers_NopAnswers :
    benchState.inst = some benchInstance ∧
      (∃ t, core.run 1 { benchState with inputs := [.edge 0 (some 0x13FF0000000000000#68)] } = .next t) ∧
      exec (.rdcfg 9) benchState = .next { benchState with outputs := benchState.outputs ++ [rsp 0x3E8] } :=
  ⟨by decide, exists_next _ rfl, rfl⟩

theorem witness_IllegalOpAnswers :
    benchState.inst = some benchInstance ∧ 6 ≤ (BitVec.extractLsb' 64 4 0x60000000000000000#68).toNat ∧
      6 ≤ (BitVec.extractLsb' 64 4 0xF0000000000000000#68).toNat := by decide

/-- A command answered OK and one that is not. -/
theorem witness_EveryCommandGetsOneResponse :
    benchState.inst = some benchInstance ∧ isConstruct (.rdtap 1) = false ∧ Instr.rdtap 1 ≠ .reset ∧
      BitVec.extractLsb' 64 2 (responseWord .badIndex 0) ≠ 0#2 ∧ isProcess (.process 0) = true := by decide

theorem witness_DescribeReadsSnapshot :
    (delayState [1, 2, 3]).inst = some (delayInstance [1, 2, 3]) ∧ (delayInstance [1, 2, 3]).wf = true := by decide

theorem witness_AccessorsDoNotDisturbTheStream :
    (∀ op ∈ [Instr.nop, .rdtap 9, .illegal8F 8], isConstruct op = false) ∧ benchState.inst.isSome = true ∧
      ({ benchState with draws := 5 } : State).inst = benchState.inst ∧
      ∃ t, runInstrs [.nop, .rdtap 9, .illegal8F 8] benchState = .next t :=
  ⟨by decide, by decide, rfl, exists_next _ (by decide)⟩

/-- A register to clear, one that is clear, and the state after construction beside a later one. -/
theorem witness_ResetClearsOnlyTheRegister :
    (delayState [1, 2, 3]).inst = some (delayInstance [1, 2, 3]) ∧
      (delayInstance [0, 0, 0]).sr = List.replicate (delayInstance [0, 0, 0]).N 0#64 ∧
      (delayState [0, 0, 0]).inst = some (delayInstance [0, 0, 0]) ∧
      delayInstance [1, 2, 3] = { delayInstance [0, 0, 0] with sr := (delayInstance [1, 2, 3]).sr } := by decide

theorem witness_StepKeepsDesign :
    ({ benchState with inputs := [.edge 0 (some 0#68)] } : State).Designed ∧
      ∃ t, step { benchState with inputs := [.edge 0 (some 0#68)] } = .next t :=
  ⟨fun i h => by cases h; exact bench_designed, exists_next _ (by decide)⟩

theorem witness_DesignedInstanceIsWellFormed : benchInstance.Designed := bench_designed

theorem witness_StepKeepsMemoryForm :
    Memory.wf { benchState with inputs := [.edge 1 none] } = true ∧
      ∃ t, step { benchState with inputs := [.edge 1 none] } = .next t :=
  ⟨by decide, exists_next _ (by decide)⟩

theorem witness_ConstantsNeverChange :
    benchState.inst = some benchInstance ∧
      ∃ t, core.run 2 { benchState with inputs := [.edge 0 (some 0#68), .edge 1 none] } = .next t :=
  ⟨rfl, exists_next _ (by decide)⟩

theorem witness_OnlyProcessAndResetWriteTheRegister :
    ∃ t i j, exec .reset (delayState [1, 2, 3]) = .next t ∧ (delayState [1, 2, 3]).inst = some i ∧ t.inst = some j ∧
      j.sr ≠ i.sr := ⟨_, _, _, rfl, rfl, rfl, by decide⟩

/-- The largest finite value for the overflow clause, an odd and an even neighbour for the ties. -/
theorem witness_AdditionIsCorrectlyRounded :
    B64.isFinite 0x7FEFFFFFFFFFFFFF#64 = true ∧
      B64.toRat 0x7FEFFFFFFFFFFFFF#64 + B64.toRat 0x7FEFFFFFFFFFFFFF#64 ≠ 0 ∧
      B64.toRat one - B64.toRat 0x3CA0000000000000#64 ≠ 0 := by decide +kernel

theorem witness_MultiplicationIsCorrectlyRounded :
    B64.isFinite 1 = true ∧ B64.toRat 1 * B64.toRat 1 ≠ 0 := by decide +kernel

theorem witness_DivisionIsCorrectlyRounded :
    B64.isFinite one = true ∧ B64.toRat B64.pi ≠ 0 ∧ B64.toRat one ≠ 0 := by decide +kernel

/-- A zero as the first and as the second factor, as a dividend, and a divisor that is an infinity. -/
theorem witness_SignsOfZeroResults :
    B64.isInf 0xFFF0000000000000#64 = true ∧ B64.isFinite one = true ∧ B64.isZero 0x8000000000000000#64 = true ∧
      B64.isFinite 0x8000000000000000#64 = true ∧ B64.isZero one = false := by decide

theorem witness_ExceptionalResults :
    B64.isNaN someNaN = true ∧ B64.isZero 0#64 = true ∧ B64.isInf 0x7FF0000000000000#64 = true ∧
      B64.isInf 0xFFF0000000000000#64 = true ∧
      B64.sign 0x7FF0000000000000#64 ≠ B64.sign 0xFFF0000000000000#64 ∧ B64.isFinite one = true ∧
      B64.isZero one = false := by decide

theorem witness_OfIntIsExact : (-2 ^ 31 : Int) ≤ -2 ^ 31 ∧ (-2 ^ 31 : Int) < 2 ^ 31 ∧ (2 ^ 31 - 1 : Int) < 2 ^ 31 := by
  decide

theorem witness_ComparisonsAreQuiet :
    B64.isNaN someNaN = true ∧ B64.isFinite one = true ∧ B64.isInf 0x7FF0000000000000#64 = true := by decide

/-- The first tap of the largest even `N`, and the centre tap of the largest odd one. -/
theorem witness_KernelsAreTheFormulas :
    1000 ≤ 1000 ∧ 0 < 1000 ∧ 2 * 0 + 1 ≠ 1000 ∧ 999 ≤ 1000 ∧ 499 < 999 ∧ 2 * 499 + 1 = 999 := by decide

/-- T2's record and the record of the delay: kinds 0 and 1, and a BandPass (kind 2) with an infinite rate. -/
theorem witness_ConstructFillsTheConstants :
    (∃ t, exec (.construct ⟨1, 0, 1, 0x4010000000000000#64, one, 0⟩) State.reset = .next t ∧
      t.inst = some benchInstance) ∧
    ((instOf (exec (.construct ⟨1, 1, 3, 0x7FF0000000000000#64, one, 0⟩) State.reset)).map (·.kind) = some 1) ∧
    ((instOf (exec (.construct ⟨1, 2, 3, 0x7FF0000000000000#64, one, 0⟩) State.reset)).map (·.kind) = some 2) := by
  refine ⟨?_, by decide +kernel, by decide +kernel⟩
  have h : instOf (exec (.construct ⟨1, 0, 1, 0x4010000000000000#64, one, 0⟩) State.reset) = some benchInstance := by
    decide +kernel
  revert h
  cases exec (.construct ⟨1, 0, 1, 0x4010000000000000#64, one, 0⟩) State.reset with
  | next t => exact fun h => ⟨t, rfl, h⟩
  | fault _ => exact fun h => nomatch h
  | refused _ => exact fun h => nomatch h

theorem witness_NegationFlipsTheSignBitOnly : 62 ≠ 63 ∧ 64 ≠ 63 := by decide

theorem witness_SineHasItsGuaranteedProperties :
    B64.isNaN one = false ∧ B64.isFinite 0x7FEFFFFFFFFFFFFF#64 = true ∧ B64.isNaN someNaN = true ∧
      B64.isInf 0xFFF0000000000000#64 = true := by decide

end Sys2Proof.Tests
end

section
/-! PROOFS. Magnitude fields of binary64 words, the values they stand for, and what `roundMag` rounds to
(`spec/00_scope.md` R11, R12). -/

namespace Sys2Proof.Machine.B64

/-! ## Magnitude fields and the values they stand for -/

/-- The value, in units, of the magnitude field `m`: its leading 53 bits, scaled by the exponent (R11). -/
def fieldUnits (m : Nat) : Nat := (m - (m / 2 ^ 52 - 1) * 2 ^ 52) * 2 ^ (m / 2 ^ 52 - 1)

theorem unitsInOne_eq : unitsInOne = 2 ^ 1074 := by
  rewrite [unitsInOne, Nat.one_shiftLeft]; rfl

theorem unitsInOne_pos : 0 < unitsInOne := by rw [unitsInOne_eq]; positivity

theorem unitsInOne_cast_pos : (0 : ℚ) < unitsInOne := by exact_mod_cast unitsInOne_pos

theorem infMag_eq : infMag = 2047 * 2 ^ 52 := rfl

/-- `unitsMag` depends on the magnitude field alone. -/
theorem unitsMag_eq (w : Word) : unitsMag w = fieldUnits (mag w) := by
  have hf : fracField w = mag w % 2 ^ 52 := by
    simp only [fracField, mag, Nat.shiftLeft_eq, one_mul]
    exact (Nat.mod_mod_of_dvd _ (by decide)).symm
  have hdiv := Nat.div_add_mod (mag w) (2 ^ 52)
  simp only [unitsMag, fieldUnits, hf, expField, Nat.shiftLeft_eq, one_mul]
  split
  · next h => rw [h] at hdiv ⊢; simp; omega
  · congr 1; omega

/-- The value of a field given by a mantissa of at most 53 bits and an exponent; `k = 2 ^ 53` is the carry. -/
theorem fieldUnits_scaled (e k : Nat) (hk : k ≤ 2 ^ 53) (he : e = 0 ∨ 2 ^ 52 ≤ k) :
    fieldUnits (e * 2 ^ 52 + k) = k * 2 ^ e := by
  unfold fieldUnits
  rcases Nat.lt_or_ge k (2 ^ 52) with h | h
  · obtain rfl : e = 0 := by omega
    rw [show (0 * 2 ^ 52 + k) / 2 ^ 52 - 1 = 0 by omega]
    simp
  rcases Nat.lt_or_eq_of_le hk with h' | rfl
  · have : (e * 2 ^ 52 + k) / 2 ^ 52 - 1 = e := by omega
    rw [this, Nat.add_sub_cancel_left]
  · have : (e * 2 ^ 52 + 2 ^ 53) / 2 ^ 52 - 1 = e + 1 := by omega
    rw [this, show e * 2 ^ 52 + 2 ^ 53 - (e + 1) * 2 ^ 52 = 2 ^ 52 by omega]
    ring

/-- Every magnitude field is a mantissa below `2 ^ 53` and an exponent. -/
theorem exists_scaled (m : Nat) :
    ∃ e k, m = e * 2 ^ 52 + k ∧ k < 2 ^ 53 ∧ (e = 0 ∨ 2 ^ 52 ≤ k) ∧ fieldUnits m = k * 2 ^ e := by
  obtain ⟨e, he⟩ : ∃ e, e = m / 2 ^ 52 - 1 := ⟨_, rfl⟩
  refine ⟨e, m - e * 2 ^ 52, by omega, by omega, by omega, ?_⟩
  rw [fieldUnits, ← he]

/-- On magnitude fields the order of the bits is the order of the values. -/
theorem fieldUnits_strictMono : StrictMono fieldUnits := by
  refine strictMono_nat_of_lt_succ fun m => ?_
  obtain ⟨e, k, rfl, hk, he, hm⟩ := exists_scaled m
  rw [hm, Nat.add_assoc, fieldUnits_scaled e (k + 1) (by omega) (by omega)]
  exact Nat.mul_lt_mul_of_pos_right (Nat.lt_succ_self k) (by positivity)

@[simp] theorem fieldUnits_zero : fieldUnits 0 = 0 := by simp [fieldUnits]

/-! ## The value of a word as a sign and a magnitude -/

/-- The magnitude `x` with the sign `s`. -/
def signed (s : Bool) (x : ℚ) : ℚ := if s then -x else x

theorem abs_signed (s : Bool) (x : ℚ) : |signed s x| = |x| := by cases s <;> simp [signed]

theorem signed_sub (s : Bool) (x y : ℚ) : signed s x - signed s y = signed s (x - y) := by
  cases s <;> simp [signed]; ring

theorem signed_mul (s t : Bool) (x y : ℚ) : signed s x * signed t y = signed (s ^^ t) (x * y) := by
  cases s <;> cases t <;> simp [signed]

theorem signed_div (s t : Bool) (x y : ℚ) : signed s x / signed t y = signed (s ^^ t) (x / y) := by
  cases s <;> cases t <;> simp [signed, neg_div, div_neg]

/-- A number that is not zero is its magnitude with its sign. -/
theorem signed_abs (v : ℚ) : signed (decide (v < 0)) |v| = v := by
  by_cases h : v < 0
  · simp [signed, h, abs_of_neg h]
  · simp [signed, h, abs_of_nonneg (not_lt.mp h)]

/-- The sign of a positive magnitude with the sign `s` is `s`. -/
theorem decide_signed_neg (s : Bool) (x : ℚ) (hx : 0 < x) : decide (signed s x < 0) = s := by
  cases s <;> simp [signed, hx, hx.le]

theorem toRat_eq_signed (w : Word) : toRat w = signed (sign w) (fieldUnits (mag w) / unitsInOne) := by
  cases h : sign w <;> simp [toRat, units, signed, h, unitsMag_eq, neg_div]

theorem abs_toRat (w : Word) : |toRat w| = fieldUnits (mag w) / unitsInOne := by
  rw [toRat_eq_signed, abs_signed, abs_of_nonneg (by positivity)]

theorem toRat_pack (s : Bool) (m : Nat) (hm : m ≤ infMag) :
    toRat (pack s m) = signed s (fieldUnits m / unitsInOne) := by
  have hm' : m < 2 ^ 63 := by rw [infMag_eq] at hm; omega
  rw [toRat_eq_signed, sign_pack s m hm', mag_pack s m hm']

theorem toRat_fneg (w : Word) : toRat (fneg w) = -toRat w := by
  rw [toRat_eq_signed, toRat_eq_signed, sign_fneg, mag_fneg]
  cases sign w <;> simp [signed]

/-- A word has the value 0 exactly when it is a zero. -/
theorem toRat_eq_zero_iff (w : Word) : toRat w = 0 ↔ isZero w = true := by
  have hU := unitsInOne_cast_pos.ne'
  have h0 : fieldUnits (mag w) = 0 ↔ mag w = 0 := by
    simpa using fieldUnits_strictMono.injective.eq_iff (a := mag w) (b := 0)
  rw [← abs_eq_zero, abs_toRat, div_eq_zero_iff]
  simp [hU, h0, isZero]

/-! ## Rounding a quotient to an integer -/

/-- `roundQuot` is within half of the quotient, and even where it is exactly half away. -/
theorem roundQuot_spec (n d : Nat) (hd : 0 < d) :
    2 * |(roundQuot n d : Int) * d - n| ≤ d ∧ (2 * |(roundQuot n d : Int) * d - n| = d → roundQuot n d % 2 = 0) := by
  have hn : (n : Int) = d * (n / d : Nat) + (n % d : Nat) := by exact_mod_cast (Nat.div_add_mod n d).symm
  have hr : n % d < d := Nat.mod_lt n hd
  unfold roundQuot
  split
  · next h =>
    have e : ((n / d + 1 : Nat) : Int) * d - n = d - (n % d : Nat) := by rw [hn]; push_cast; ring
    rw [e, abs_of_nonneg (by omega)]
    omega
  · next h =>
    have e : ((n / d : Nat) : Int) * d - n = -(n % d : Nat) := by rw [hn]; push_cast; ring
    rw [e, abs_neg, abs_of_nonneg (by omega)]
    omega

theorem roundQuot_bounds (n d : Nat) : n / d ≤ roundQuot n d ∧ roundQuot n d ≤ n / d + 1 := by
  unfold roundQuot; split <;> omega

theorem abs_roundQuot_sub_le (n d : Nat) (hd : 0 < d) : |(roundQuot n d : ℚ) - n / d| ≤ 1 / 2 := by
  have hd' : (0 : ℚ) < d := by exact_mod_cast hd
  have h : 2 * |(roundQuot n d : ℚ) * d - n| ≤ d := by exact_mod_cast (roundQuot_spec n d hd).1
  have e : (roundQuot n d : ℚ) - n / d = (roundQuot n d * d - n) / d := by field_simp
  rw [e, abs_div, abs_of_pos hd', div_le_iff₀ hd']
  linarith

theorem roundQuot_even_of_half (n d : Nat) (hd : 0 < d) (h : |(roundQuot n d : ℚ) - n / d| = 1 / 2) :
    roundQuot n d % 2 = 0 := by
  have hd' : (0 : ℚ) < d := by exact_mod_cast hd
  have e : (roundQuot n d : ℚ) - n / d = (roundQuot n d * d - n) / d := by field_simp
  rw [e, abs_div, abs_of_pos hd', div_eq_iff hd'.ne'] at h
  refine (roundQuot_spec n d hd).2 ?_
  have : 2 * |(roundQuot n d : ℚ) * d - n| = d := by linarith
  exact_mod_cast this

/-- No integer is nearer to the quotient than `roundQuot`, and one that is as near is met by an even result. -/
theorem roundQuot_nearest (n d : Nat) (hd : 0 < d) (k : Nat) :
    |(roundQuot n d : ℚ) - n / d| ≤ |(k : ℚ) - n / d| ∧
      (k ≠ roundQuot n d → |(k : ℚ) - n / d| = |(roundQuot n d : ℚ) - n / d| → roundQuot n d % 2 = 0) := by
  have hhalf := abs_roundQuot_sub_le n d hd
  by_cases hk : k = roundQuot n d
  · simp [hk]
  have h1 : (1 : ℚ) ≤ |(k : ℚ) - roundQuot n d| := by
    exact_mod_cast Int.one_le_abs (sub_ne_zero.mpr (Int.ofNat_inj.not.mpr hk))
  have htri := abs_sub_le (k : ℚ) (n / d) (roundQuot n d)
  rw [abs_sub_comm ((n : ℚ) / d)] at htri
  exact ⟨by linarith, fun _ h => roundQuot_even_of_half n d hd (by linarith)⟩

/-- The rounded quotient reaches an even `k` from half below `k` on. -/
theorem le_roundQuot_iff_of_even (n d k : Nat) (hd : 0 < d) (hk : k % 2 = 0) :
    k ≤ roundQuot n d ↔ 2 * (k * d) ≤ 2 * n + d := by
  obtain ⟨hle, heven⟩ := roundQuot_spec n d hd
  have hupper := le_abs_self ((roundQuot n d : Int) * d - n)
  have hlower := neg_abs_le ((roundQuot n d : Int) * d - n)
  constructor
  · intro h
    have : (k : Int) * d ≤ roundQuot n d * d := by gcongr
    zify; linarith
  · intro h
    by_contra hlt
    have hstep : ((roundQuot n d : Int) + 1) * d ≤ k * d := by gcongr; omega
    zify at h
    -- the quotient is half above `roundQuot`, which is then even, and `k` is the next integer
    have hQ : roundQuot n d % 2 = 0 := heven (by linarith)
    have hkd : k * d = (roundQuot n d + 1) * d := by zify; linarith
    have := Nat.eq_of_mul_eq_mul_right hd hkd
    omega

/-! ## Rounding to a magnitude field (R12) -/

/-- `roundMag` before the cut at the infinity. -/
def roundField (n d : Nat) : Nat := ulpExp (n / d) * 2 ^ 52 + roundQuot n (d * 2 ^ ulpExp (n / d))

theorem roundMag_eq (n d : Nat) : roundMag n d = min (roundField n d) infMag := by
  simp only [roundMag, roundField, Nat.shiftLeft_eq]

theorem lt_two_pow_ulpExp (a : Nat) : a < 2 ^ (53 + ulpExp a) :=
  Nat.lt_log2_self.trans_le (Nat.pow_le_pow_right (by decide) (by unfold ulpExp; omega))

theorem two_pow_ulpExp_le (a : Nat) (h : 0 < ulpExp a) : 2 ^ (52 + ulpExp a) ≤ a := by
  unfold ulpExp at *
  rw [show 52 + (a.log2 - 52) = a.log2 by omega]
  refine Nat.log2_self_le ?_
  rintro rfl
  simp at h

theorem ulpExp_mono {a b : Nat} (h : a ≤ b) : ulpExp a ≤ ulpExp b := by
  have : a.log2 ≤ b.log2 := by rw [Nat.log2_eq_log_two, Nat.log2_eq_log_two]; exact Nat.log_mono_right h
  unfold ulpExp; omega

/-- The mantissa that `roundField` computes has at most 53 bits, or is the carry `2 ^ 53`, and is normal above the lowest
binade. -/
theorem roundQuot_mantissa (n d : Nat) :
    roundQuot n (d * 2 ^ ulpExp (n / d)) ≤ 2 ^ 53 ∧
      (ulpExp (n / d) = 0 ∨ 2 ^ 52 ≤ roundQuot n (d * 2 ^ ulpExp (n / d))) := by
  obtain ⟨hge, hle⟩ := roundQuot_bounds n (d * 2 ^ ulpExp (n / d))
  rw [← Nat.div_div_eq_div_mul] at hge hle
  constructor
  · have : n / d / 2 ^ ulpExp (n / d) < 2 ^ 53 := by
      rw [Nat.div_lt_iff_lt_mul (by positivity), ← Nat.pow_add]; exact lt_two_pow_ulpExp _
    omega
  · rcases Nat.eq_zero_or_pos (ulpExp (n / d)) with h | h
    · exact .inl h
    · refine .inr (le_trans ?_ hge)
      rw [Nat.le_div_iff_mul_le (by positivity), ← Nat.pow_add]; exact two_pow_ulpExp_le _ h

/-- What the rounded field stands for. -/
theorem fieldUnits_roundField (n d : Nat) :
    fieldUnits (roundField n d) = roundQuot n (d * 2 ^ ulpExp (n / d)) * 2 ^ ulpExp (n / d) :=
  fieldUnits_scaled _ _ (roundQuot_mantissa n d).1 (roundQuot_mantissa n d).2

/-- Differences from the quotient on the grid of a scale `g`. -/
theorem abs_scaled_sub (n d g k : Nat) (hg : 0 < g) :
    |((k * g : Nat) : ℚ) - n / d| = |(k : ℚ) - n / (d * g : Nat)| * g := by
  have hg' : (0 : ℚ) < g := by exact_mod_cast hg
  have e : ((k * g : Nat) : ℚ) - n / d = ((k : ℚ) - n / (d * g : Nat)) * g := by
    push_cast; field_simp
  rw [e, abs_mul, abs_of_pos hg']

/-- The error of rounding is at most half a unit in the last place. -/
theorem abs_fieldUnits_roundField_sub_le (n d : Nat) (hd : 0 < d) :
    |(fieldUnits (roundField n d) : ℚ) - n / d| ≤ 2 ^ ulpExp (n / d) / 2 := by
  have hg : 0 < 2 ^ ulpExp (n / d) := by positivity
  have h := abs_roundQuot_sub_le n (d * 2 ^ ulpExp (n / d)) (by positivity)
  rw [fieldUnits_roundField, abs_scaled_sub n d _ _ hg]
  push_cast at h ⊢
  have hg' : (0 : ℚ) < 2 ^ ulpExp (n / d) := by positivity
  nlinarith

/-- A field on the grid of the quotient's binade, or the value below that binade, which is then farther from the quotient
than the first value of the binade. -/
theorem fieldUnits_on_grid_or_below (n d m : Nat) :
    (∃ k, fieldUnits m = k * 2 ^ ulpExp (n / d)) ∨
      |((2 ^ 52 * 2 ^ ulpExp (n / d) : Nat) : ℚ) - n / d| < |(fieldUnits m : ℚ) - n / d| := by
  obtain ⟨e, k, -, hk, he, hm⟩ := exists_scaled m
  rcases Nat.lt_or_ge e (ulpExp (n / d)) with hlt | hge
  · right
    have hx : 2 ^ 52 * 2 ^ ulpExp (n / d) ≤ n / d := by
      rw [← Nat.pow_add]; exact two_pow_ulpExp_le _ (by omega)
    have hx' : ((2 ^ 52 * 2 ^ ulpExp (n / d) : Nat) : ℚ) ≤ n / d :=
      (Nat.cast_le.mpr hx).trans Nat.cast_div_le
    have hlow : fieldUnits m < 2 ^ 52 * 2 ^ ulpExp (n / d) := by
      calc fieldUnits m = k * 2 ^ e := hm
        _ < 2 ^ 53 * 2 ^ e := by gcongr
        _ = 2 ^ 52 * 2 ^ (e + 1) := by ring
        _ ≤ 2 ^ 52 * 2 ^ ulpExp (n / d) := by gcongr <;> omega
    have hlow' : (fieldUnits m : ℚ) < (2 ^ 52 * 2 ^ ulpExp (n / d) : Nat) := by exact_mod_cast hlow
    rw [abs_of_nonpos (by linarith), abs_of_nonpos (by linarith)]
    linarith
  · left
    refine ⟨k * 2 ^ (e - ulpExp (n / d)), ?_⟩
    rw [hm, Nat.mul_assoc, ← Nat.pow_add, Nat.sub_add_cancel hge]

/-- No field is nearer to the quotient than the rounded one, and one that is as near is met by an even result (R12). -/
theorem roundField_nearest (n d : Nat) (hd : 0 < d) (m : Nat) :
    |(fieldUnits (roundField n d) : ℚ) - n / d| ≤ |(fieldUnits m : ℚ) - n / d| ∧
      (m ≠ roundField n d → |(fieldUnits m : ℚ) - n / d| = |(fieldUnits (roundField n d) : ℚ) - n / d| →
        roundField n d % 2 = 0) := by
  have hg : 0 < 2 ^ ulpExp (n / d) := by positivity
  have hg' : (0 : ℚ) < (2 ^ ulpExp (n / d) : Nat) := by exact_mod_cast hg
  have near := roundQuot_nearest n (d * 2 ^ ulpExp (n / d)) (by positivity)
  have first := mul_le_mul_of_nonneg_right (near (2 ^ 52)).1 hg'.le
  rw [← abs_scaled_sub n d _ _ hg, ← abs_scaled_sub n d _ _ hg, ← fieldUnits_roundField] at first
  rcases fieldUnits_on_grid_or_below n d m with ⟨k, hk⟩ | hbelow
  · have hne : m ≠ roundField n d → k ≠ roundQuot n (d * 2 ^ ulpExp (n / d)) := by
      rintro h rfl
      exact h (fieldUnits_strictMono.injective (hk.trans (fieldUnits_roundField n d).symm))
    rw [hk, fieldUnits_roundField, abs_scaled_sub n d _ _ hg, abs_scaled_sub n d _ _ hg]
    refine ⟨mul_le_mul_of_nonneg_right (near k).1 hg'.le, fun h heq => ?_⟩
    have := (near k).2 (hne h) (mul_right_cancel₀ hg'.ne' heq)
    unfold roundField; omega
  · exact ⟨first.trans hbelow.le, fun _ heq => absurd heq (first.trans_lt hbelow).ne'⟩

/-- The quotients that round up to the start of a binade, or beyond it, are those from half a unit in the last place
below it on. -/
theorem le_roundField_iff (n d e : Nat) (hd : 0 < d) :
    (e + 3) * 2 ^ 52 ≤ roundField n d ↔ (2 ^ 54 - 1) * 2 ^ e * d ≤ n := by
  obtain ⟨hle, hge⟩ := roundQuot_mantissa n d
  rw [← Nat.le_div_iff_mul_le hd]
  rcases Nat.lt_trichotomy (ulpExp (n / d)) (e + 1) with h | h | h
  · have hfield : roundField n d < (e + 3) * 2 ^ 52 := by rw [roundField]; omega
    have hquot : n / d < (2 ^ 54 - 1) * 2 ^ e := by
      calc n / d < 2 ^ (53 + ulpExp (n / d)) := lt_two_pow_ulpExp _
        _ ≤ 2 ^ (53 + e) := Nat.pow_le_pow_right (by decide) (by omega)
        _ = 2 ^ 53 * 2 ^ e := Nat.pow_add ..
        _ ≤ (2 ^ 54 - 1) * 2 ^ e := Nat.mul_le_mul_right _ (by decide)
    omega
  · have hfield : (e + 3) * 2 ^ 52 ≤ roundField n d ↔ 2 ^ 53 ≤ roundQuot n (d * 2 ^ ulpExp (n / d)) := by
      rw [roundField]; omega
    have hscale : 2 * (2 ^ 53 * (d * 2 ^ (e + 1))) = 2 * ((2 ^ 54 - 1) * 2 ^ e * d) + d * 2 ^ (e + 1) := by
      rw [pow_succ 2 e]; ring
    have hround := le_roundQuot_iff_of_even n (d * 2 ^ (e + 1)) (2 ^ 53) (by positivity) rfl
    rw [hfield, h, hround, Nat.le_div_iff_mul_le hd, hscale, Nat.add_le_add_iff_right]
    exact Nat.mul_le_mul_left_iff (by decide)
  · have hfield : (e + 3) * 2 ^ 52 ≤ roundField n d := by rw [roundField]; omega
    have hquot : (2 ^ 54 - 1) * 2 ^ e ≤ n / d := by
      calc (2 ^ 54 - 1) * 2 ^ e ≤ 2 ^ 54 * 2 ^ e := Nat.mul_le_mul_right _ (by decide)
        _ = 2 ^ (54 + e) := (Nat.pow_add ..).symm
        _ ≤ 2 ^ (52 + ulpExp (n / d)) := Nat.pow_le_pow_right (by decide) (by omega)
        _ ≤ n / d := two_pow_ulpExp_le _ (by omega)
    exact iff_of_true hfield hquot

/-- The bound of the statements, in units. -/
theorem overflowBound_mul_unitsInOne : overflowBound * unitsInOne = (2 ^ 54 - 1) * 2 ^ 2044 := by
  rewrite [overflowBound, unitsInOne_eq, Nat.cast_pow, Nat.cast_ofNat]
  rw [show 1024 = 54 + 970 by rfl, pow_add, show 2044 = 970 + 1074 by rfl, pow_add]
  ring

/-- The magnitudes that round to an infinity are those from the overflow bound on (R12). -/
theorem infMag_le_roundField_iff (n d : Nat) (hd : 0 < d) :
    infMag ≤ roundField n d ↔ overflowBound ≤ (n : ℚ) / d / unitsInOne := by
  have hd' : (0 : ℚ) < d := by exact_mod_cast hd
  rw [infMag_eq, show 2047 = 2044 + 3 by rfl, le_roundField_iff n d 2044 hd, le_div_iff₀ unitsInOne_cast_pos,
    overflowBound_mul_unitsInOne, le_div_iff₀ hd']
  generalize 2044 = e
  rw [← Nat.cast_le (α := ℚ)]
  push_cast
  norm_num

end Sys2Proof.Machine.B64
end

section
/-! PROOFS. The arithmetic of B64 on finite words is correctly rounded, and `ofInt` is exact on its domain
(`spec/00_scope.md` R12). -/

namespace Sys2Proof.Machine.B64

/-! ## Correct rounding (R12) -/

theorem isFinite_iff (w : Word) : isFinite w = true ↔ mag w < infMag := by simp [isFinite]

@[simp] theorem isInf_pack_infMag (s : Bool) : isInf (pack s infMag) = true := by cases s <;> decide
@[simp] theorem sign_pack_infMag (s : Bool) : sign (pack s infMag) = s := sign_pack s infMag (by decide)

theorem getLsbD_zero_pack (s : Bool) (m : Nat) (hm : m < 2 ^ 63) (h : m % 2 = 0) : (pack s m).getLsbD 0 = false := by
  rw [BitVec.getLsbD, toNat_pack s m hm, Nat.testBit_zero]
  cases s <;> simp <;> omega

/-- A value as far from `v` as a nearest value has a magnitude as far from that of `v`; the value is another only if the
magnitude is. -/
theorem abs_ne_of_tie {c r v : ℚ} (hv : v ≠ 0) (htie : |c - v| = |r - v|) (hne : c ≠ r) : |c| ≠ |r| := by
  intro habs
  rcases abs_eq_abs.mp habs with h | rfl
  · exact hne h
  · rcases abs_eq_abs.mp htie with h | h
    · exact hne (by linarith)
    · exact hv (by linarith)

/-- The distance of a magnitude from that of `v`, against the distance in units. -/
theorem abs_fieldUnits_div_sub_abs {v : ℚ} {n d : Nat} (habs : |v| = (n : ℚ) / d / unitsInOne) (m : Nat) :
    |(fieldUnits m : ℚ) / unitsInOne - abs v| = |(fieldUnits m : ℚ) - n / d| / unitsInOne := by
  rw [habs, ← sub_div, abs_div, abs_of_pos unitsInOne_cast_pos]

/-- The distance of a packed magnitude with the sign of `v` from `v` is that of the magnitudes. -/
theorem abs_toRat_pack_sub {v : ℚ} {s : Bool} (hs : s = decide (v < 0)) (m : Nat) (hm : m ≤ infMag) :
    |toRat (pack s m) - v| = |(fieldUnits m : ℚ) / unitsInOne - abs v| := by
  have hv : signed s (abs v) = v := by rw [hs, signed_abs]
  rw [toRat_pack s m hm, ← abs_signed s (_ - abs v), ← signed_sub, hv]

section
variable {v : ℚ} {s : Bool} {n d : Nat} (hs : s = decide (v < 0)) (hd : 0 < d)
  (habs : |v| = (n : ℚ) / d / unitsInOne)
include hs hd habs

/-- Below the infinity the rounded field is a nearest value, and an even one where it is not the only one. -/
theorem pack_roundField_nearest (hv : v ≠ 0) (hfin : roundField n d < infMag) (c : Word) :
    |toRat (pack s (roundField n d)) - v| ≤ |toRat c - v| ∧
      (|toRat c - v| = |toRat (pack s (roundField n d)) - v| → toRat c ≠ toRat (pack s (roundField n d)) →
        roundField n d % 2 = 0) := by
  have hU := unitsInOne_cast_pos
  have hr := abs_toRat_pack_sub hs (roundField n d) hfin.le
  obtain ⟨hle, heven⟩ := roundField_nearest n d hd (mag c)
  have hnear : |toRat (pack s (roundField n d)) - v| ≤ |(fieldUnits (mag c) : ℚ) / unitsInOne - abs v| := by
    rw [hr, abs_fieldUnits_div_sub_abs habs, abs_fieldUnits_div_sub_abs habs]
    exact div_le_div_of_nonneg_right hle hU.le
  have hfar : |(fieldUnits (mag c) : ℚ) / unitsInOne - abs v| ≤ |toRat c - v| := by
    rw [← abs_toRat]; exact abs_abs_sub_abs_le_abs_sub _ _
  refine ⟨hnear.trans hfar, fun htie hne => heven (fun hc => ?_) ?_⟩
  · refine abs_ne_of_tie hv htie hne ?_
    rw [abs_toRat, abs_toRat, hc, mag_pack s _ (hfin.trans (by decide))]
  · have heq := le_antisymm (hfar.trans htie.le) hnear
    rw [hr, abs_fieldUnits_div_sub_abs habs, abs_fieldUnits_div_sub_abs habs] at heq
    exact (div_left_inj' hU.ne').mp heq

/-- The rounded magnitude with the sign of `v` is `v` correctly rounded. -/
theorem roundsTo_pack_roundMag (hv : v ≠ 0) : RoundsTo v (pack s (roundMag n d)) := by
  have hm : roundMag n d < 2 ^ 63 := (roundMag_le n d).trans_lt (by decide)
  have hover := infMag_le_roundField_iff n d hd
  rw [← habs] at hover
  refine ⟨fun hlt => ?_, fun hge => ?_, ?_⟩
  · have hfin : roundField n d < infMag := by rwa [← not_le, hover, not_le]
    rw [roundMag_eq, min_eq_left hfin.le] at hm ⊢
    have hnear := pack_roundField_nearest hs hd habs hv hfin
    exact ⟨by rwa [isFinite_iff, mag_pack s _ hm], fun c _ => (hnear c).1,
      fun c _ htie hne => getLsbD_zero_pack s _ hm ((hnear c).2 htie hne)⟩
  · rw [roundMag_eq, min_eq_right (hover.mpr hge)]
    exact isInf_pack_infMag s
  · rw [sign_pack s _ hm, hs, decide_eq_true_eq]

end

/-- A value that the format has is its own rounding. -/
theorem RoundsTo.exact {v : ℚ} {r : Word} (h : RoundsTo v r) (hlt : |v| < overflowBound) {c : Word}
    (hc : isFinite c = true) (hv : toRat c = v) : isFinite r = true ∧ toRat r = v := by
  obtain ⟨hfin, hnear, -⟩ := h.1 hlt
  have := hnear c hc
  rw [hv, sub_self, abs_zero, abs_nonpos_iff, sub_eq_zero] at this
  exact ⟨hfin, this⟩

/-! ## The operations on finite words -/

/-- A finite word is neither a NaN nor an infinity. -/
theorem isNaN_of_isFinite {w : Word} (h : isFinite w = true) : isNaN w = false := by
  simp only [isFinite, decide_eq_true_eq] at h
  simp only [isNaN, decide_eq_false_iff_not]; omega

theorem isInf_of_isFinite {w : Word} (h : isFinite w = true) : isInf w = false := by
  simp only [isFinite, decide_eq_true_eq] at h
  simp only [isInf, beq_eq_false_iff_ne]; omega

theorem isFinite_fneg (w : Word) : isFinite (fneg w) = isFinite w := by simp [isFinite]

theorem fadd_of_isFinite (q : Word) {a b : Word} (ha : isFinite a = true) (hb : isFinite b = true) :
    fadd q a b = if units a + units b = 0 then pack (sign a && sign b) 0
      else pack (decide (units a + units b < 0)) (roundMag (units a + units b).natAbs 1) := by
  simp [fadd, isNaN_of_isFinite ha, isNaN_of_isFinite hb, isInf_of_isFinite ha, isInf_of_isFinite hb]

theorem fmul_of_isFinite (q : Word) {a b : Word} (ha : isFinite a = true) (hb : isFinite b = true) :
    fmul q a b = pack (sign a ^^ sign b) (roundMag (unitsMag a * unitsMag b) unitsInOne) := by
  simp [fmul, isNaN_of_isFinite ha, isNaN_of_isFinite hb, isInf_of_isFinite ha, isInf_of_isFinite hb]

theorem fdiv_of_isFinite (q : Word) {a b : Word} (ha : isFinite a = true) (hb : isFinite b = true)
    (hz : isZero b = false) :
    fdiv q a b = pack (sign a ^^ sign b) (roundMag (unitsMag a * unitsInOne) (unitsMag b)) := by
  simp [fdiv, isNaN_of_isFinite ha, isNaN_of_isFinite hb, isInf_of_isFinite ha, isInf_of_isFinite hb, hz]

theorem roundsTo_fadd (q : Word) {a b : Word} (ha : isFinite a = true) (hb : isFinite b = true)
    (h : toRat a + toRat b ≠ 0) : RoundsTo (toRat a + toRat b) (fadd q a b) := by
  have hU := unitsInOne_cast_pos
  have hsum : toRat a + toRat b = ((units a + units b : Int) : ℚ) / unitsInOne := by
    rw [toRat, toRat, ← add_div]; push_cast; rfl
  have hne : units a + units b ≠ 0 := by
    intro h0; rw [hsum, h0] at h; simp at h
  rw [fadd_of_isFinite q ha hb, if_neg hne]
  refine roundsTo_pack_roundMag ?_ Nat.one_pos ?_ h
  · rw [decide_eq_decide, hsum, div_lt_iff₀ hU, zero_mul, Int.cast_lt_zero]
  · rw [hsum, abs_div, abs_of_pos hU, Nat.cast_one, div_one, Nat.cast_natAbs, Int.cast_abs]

theorem unitsMag_pos {w : Word} (h : toRat w ≠ 0) : 0 < unitsMag w := by
  rw [Nat.pos_iff_ne_zero]
  intro h0
  rw [toRat_eq_signed, ← unitsMag_eq, h0] at h
  cases hs : sign w <;> simp [signed, hs] at h

theorem toRat_eq_signed_unitsMag (w : Word) : toRat w = signed (sign w) (unitsMag w / unitsInOne) := by
  rw [unitsMag_eq, toRat_eq_signed]

theorem roundsTo_fmul (q : Word) {a b : Word} (ha : isFinite a = true) (hb : isFinite b = true)
    (h : toRat a * toRat b ≠ 0) : RoundsTo (toRat a * toRat b) (fmul q a b) := by
  have hU := unitsInOne_cast_pos
  have ha0 : (0 : ℚ) < unitsMag a := by exact_mod_cast unitsMag_pos (left_ne_zero_of_mul h)
  have hb0 : (0 : ℚ) < unitsMag b := by exact_mod_cast unitsMag_pos (right_ne_zero_of_mul h)
  have hprod : toRat a * toRat b = signed (sign a ^^ sign b) (unitsMag a / unitsInOne * (unitsMag b / unitsInOne)) := by
    rw [toRat_eq_signed_unitsMag, toRat_eq_signed_unitsMag, signed_mul]
  have hpos := mul_pos (div_pos ha0 hU) (div_pos hb0 hU)
  rw [fmul_of_isFinite q ha hb]
  refine roundsTo_pack_roundMag ?_ unitsInOne_pos ?_ h
  · rw [hprod, decide_signed_neg _ _ hpos]
  · rw [hprod, abs_signed, abs_of_pos hpos]
    push_cast; field_simp

theorem roundsTo_fdiv (q : Word) {a b : Word} (ha : isFinite a = true) (hb : isFinite b = true)
    (hb0 : toRat b ≠ 0) (ha0 : toRat a ≠ 0) : RoundsTo (toRat a / toRat b) (fdiv q a b) := by
  have hU := unitsInOne_cast_pos
  have ha0' : (0 : ℚ) < unitsMag a := by exact_mod_cast unitsMag_pos ha0
  have hb0' : (0 : ℚ) < unitsMag b := by exact_mod_cast unitsMag_pos hb0
  have hz : isZero b = false := by
    rw [← Bool.not_eq_true, ← toRat_eq_zero_iff]; exact hb0
  have hquot : toRat a / toRat b = signed (sign a ^^ sign b) (unitsMag a / unitsInOne / (unitsMag b / unitsInOne)) := by
    rw [toRat_eq_signed_unitsMag, toRat_eq_signed_unitsMag, signed_div]
  have hpos := div_pos (div_pos ha0' hU) (div_pos hb0' hU)
  rw [fdiv_of_isFinite q ha hb hz]
  refine roundsTo_pack_roundMag ?_ (unitsMag_pos hb0) ?_ (div_ne_zero ha0 hb0)
  · rw [hquot, decide_signed_neg _ _ hpos]
  · rw [hquot, abs_signed, abs_of_pos hpos]
    push_cast; field_simp

/-- Settles O49, from the rounding of the exact sum; a difference is a sum with the negation. -/
theorem additionIsCorrectlyRounded : Obligations.AdditionIsCorrectlyRounded := by
  intro q a b ha hb
  refine ⟨roundsTo_fadd q ha hb, fun h => ?_⟩
  rw [sub_eq_add_neg, ← toRat_fneg] at h ⊢
  exact roundsTo_fadd q ha (by rwa [isFinite_fneg]) h

/-- Settles O50, from the rounding of the exact product of the magnitudes. -/
theorem multiplicationIsCorrectlyRounded : Obligations.MultiplicationIsCorrectlyRounded :=
  fun q _ _ => roundsTo_fmul q

/-- Settles O51, from the rounding of the exact quotient of the magnitudes. -/
theorem divisionIsCorrectlyRounded : Obligations.DivisionIsCorrectlyRounded :=
  fun q _ _ => roundsTo_fdiv q

/-! ## Integers -/

/-- The format has every natural number below `2 ^ 53`. -/
theorem exists_fieldUnits_eq (k : Nat) (hk : k < 2 ^ 53) :
    ∃ m < infMag, fieldUnits m = k * unitsInOne := by
  rcases Nat.eq_zero_or_pos k with rfl | hpos
  · exact ⟨0, by decide, by simp⟩
  have hlog : Nat.log 2 k < 53 := Nat.log_lt_of_lt_pow hpos.ne' hk
  have hlow : 2 ^ Nat.log 2 k ≤ k := Nat.pow_log_le_self 2 hpos.ne'
  have hhigh : k < 2 ^ (Nat.log 2 k + 1) := Nat.lt_pow_succ_log_self (by decide) k
  obtain ⟨e, he⟩ : ∃ e, 52 = Nat.log 2 k + e := ⟨_, (Nat.add_sub_cancel' (by omega)).symm⟩
  have hge : 2 ^ 52 ≤ k * 2 ^ e := by
    rw [he, Nat.pow_add]; gcongr
  have hlt : k * 2 ^ e < 2 ^ 53 := by
    rw [show 53 = Nat.log 2 k + 1 + e by omega, Nat.pow_add]; gcongr
  refine ⟨(1074 - e) * 2 ^ 52 + k * 2 ^ e, by rw [infMag_eq]; omega, ?_⟩
  rw [fieldUnits_scaled _ _ hlt.le (.inr hge), unitsInOne_eq, Nat.mul_assoc, ← Nat.pow_add,
    Nat.add_sub_cancel' (by omega)]

theorem exists_toRat_eq_intCast (k : Int) (hk : k.natAbs < 2 ^ 53) : ∃ c, isFinite c = true ∧ toRat c = k := by
  have hU := unitsInOne_cast_pos.ne'
  obtain ⟨m, hm, hval⟩ := exists_fieldUnits_eq k.natAbs hk
  refine ⟨pack (decide ((k : ℚ) < 0)) m, ?_, ?_⟩
  · rwa [isFinite_iff, mag_pack _ _ (hm.trans (by decide))]
  · rw [toRat_pack _ _ hm.le, hval, Nat.cast_mul, mul_div_cancel_right₀ _ hU, Nat.cast_natAbs, Int.cast_abs, signed_abs]

theorem two_pow_53_le_overflowBound : 2 ^ 53 ≤ overflowBound := by
  rewrite [overflowBound, show 1024 = 54 + 970 by rfl, pow_add]
  have hone : (1 : ℚ) ≤ 2 ^ 970 := one_le_pow₀ (by norm_num)
  generalize (2 : ℚ) ^ 970 = x at *
  linarith

/-- `ofInt` rounds its operand. -/
theorem roundsTo_ofInt (k : Int) (hk : k ≠ 0) : RoundsTo k (ofInt k) := by
  have hU := unitsInOne_cast_pos.ne'
  refine roundsTo_pack_roundMag (by simp) Nat.one_pos ?_ (by exact_mod_cast hk)
  rw [Nat.cast_mul, Nat.cast_one, div_one, mul_div_cancel_right₀ _ hU, Nat.cast_natAbs, Int.cast_abs]

theorem roundMag_zero (d : Nat) : roundMag 0 d = 0 := by
  simp [roundMag, roundQuot, ulpExp]

theorem ofInt_zero : ofInt 0 = zero := by
  simp [ofInt, roundMag_zero]; rfl

/-- Settles O54: `ofInt` rounds an integer, and the format has this one. -/
theorem ofIntIsExact : Obligations.OfIntIsExact := by
  intro k hlow hhigh
  rcases eq_or_ne k 0 with rfl | hk
  · rw [ofInt_zero]
    exact ⟨by decide, by rw [Int.cast_zero, toRat_eq_zero_iff]; decide⟩
  · have hsmall : k.natAbs < 2 ^ 53 := by omega
    obtain ⟨c, hc, hv⟩ := exists_toRat_eq_intCast k hsmall
    refine (roundsTo_ofInt k hk).exact (lt_of_lt_of_le ?_ two_pow_53_le_overflowBound) hc hv
    rw [← Int.cast_abs, Int.abs_eq_natAbs]
    exact_mod_cast hsmall

end Sys2Proof.Machine.B64
end

section
/-! PROOFS. The operations of B64 on NaNs, infinities and zeros, the comparisons (`spec/00_scope.md` R12, R13),
and the stops of the machine (R19, `spec/60_exceptions.md` R153). -/

namespace Sys2Proof.Machine.B64

/-! ## The classes of words -/

theorem isFinite_of_isZero {w : Word} (h : isZero w = true) : isFinite w = true := by
  simp only [isZero, beq_iff_eq] at h
  rw [isFinite_iff, h]; decide

theorem isZero_of_isInf {w : Word} (h : isInf w = true) : isZero w = false := by
  simp only [isInf, beq_iff_eq] at h
  simp only [isZero, h]; decide

theorem isNaN_of_isInf {w : Word} (h : isInf w = true) : isNaN w = false := by
  simp only [isInf, beq_iff_eq] at h
  simp [isNaN, h]

@[simp] theorem isNaN_fneg (w : Word) : isNaN (fneg w) = isNaN w := by simp [isNaN]
@[simp] theorem isInf_fneg (w : Word) : isInf (fneg w) = isInf w := by simp [isInf]
@[simp] theorem isZero_fneg (w : Word) : isZero (fneg w) = isZero w := by simp [isZero]

@[simp] theorem isZero_pack_zero (s : Bool) : isZero (pack s 0) = true := by cases s <;> decide
@[simp] theorem sign_pack_zero (s : Bool) : sign (pack s 0) = s := sign_pack s 0 (by decide)

/-! ## The operations on a NaN, an infinity or a zero -/

section
variable (q : Word) {a b : Word}

theorem fadd_of_isNaN (h : isNaN a = true ∨ isNaN b = true) : fadd q a b = q := by simp [fadd, h]

theorem fmul_of_isNaN (h : isNaN a = true ∨ isNaN b = true) : fmul q a b = q := by simp [fmul, h]

theorem fdiv_of_isNaN (h : isNaN a = true ∨ isNaN b = true) : fdiv q a b = q := by simp [fdiv, h]

theorem fadd_of_isInf_left (ha : isInf a = true) (hb : isFinite b = true) : fadd q a b = a := by
  simp [fadd, ha, isNaN_of_isInf ha, isNaN_of_isFinite hb, isInf_of_isFinite hb]

theorem fadd_of_isInf_right (ha : isFinite a = true) (hb : isInf b = true) : fadd q a b = b := by
  simp [fadd, hb, isNaN_of_isInf hb, isNaN_of_isFinite ha, isInf_of_isFinite ha]

theorem fadd_of_isInf (ha : isInf a = true) (hb : isInf b = true) :
    fadd q a b = if sign a = sign b then a else q := by
  by_cases h : sign a = sign b <;> simp [fadd, ha, hb, isNaN_of_isInf ha, isNaN_of_isInf hb, h]

theorem fmul_of_isInf (h : isInf a = true ∨ isInf b = true) (ha : isNaN a = false) (hb : isNaN b = false) :
    fmul q a b = if isZero a || isZero b then q else pack (sign a ^^ sign b) infMag := by
  simp [fmul, h, ha, hb]

theorem fdiv_of_isInf (ha : isInf a = true) (hb : isInf b = true) : fdiv q a b = q := by
  simp [fdiv, ha, hb, isNaN_of_isInf ha, isNaN_of_isInf hb]

theorem fdiv_of_isInf_left (ha : isInf a = true) (hb : isFinite b = true) :
    fdiv q a b = pack (sign a ^^ sign b) infMag := by
  simp [fdiv, ha, isNaN_of_isInf ha, isNaN_of_isFinite hb, isInf_of_isFinite hb]

theorem fdiv_of_isInf_right (ha : isFinite a = true) (hb : isInf b = true) :
    fdiv q a b = pack (sign a ^^ sign b) 0 := by
  simp [fdiv, hb, isNaN_of_isInf hb, isNaN_of_isFinite ha, isInf_of_isFinite ha]

theorem fdiv_of_isZero_right (ha : isFinite a = true) (hb : isZero b = true) :
    fdiv q a b = if isZero a then q else pack (sign a ^^ sign b) infMag := by
  have hb' := isFinite_of_isZero hb
  simp [fdiv, hb, isNaN_of_isFinite ha, isInf_of_isFinite ha, isNaN_of_isFinite hb', isInf_of_isFinite hb']

theorem unitsMag_of_isZero (h : isZero a = true) : unitsMag a = 0 := by
  simp only [isZero, beq_iff_eq] at h
  rw [unitsMag_eq, h, fieldUnits_zero]

theorem fmul_of_isZero (ha : isFinite a = true) (hb : isFinite b = true) (h : isZero a = true ∨ isZero b = true) :
    fmul q a b = pack (sign a ^^ sign b) 0 := by
  have h0 : unitsMag a * unitsMag b = 0 := by
    rcases h with h | h <;> simp [unitsMag_of_isZero h]
  rw [fmul_of_isFinite q ha hb, h0, roundMag_zero]

theorem fdiv_of_isZero_left (ha : isZero a = true) (hb : isFinite b = true) (hz : isZero b = false) :
    fdiv q a b = pack (sign a ^^ sign b) 0 := by
  rw [fdiv_of_isFinite q (isFinite_of_isZero ha) hb hz, unitsMag_of_isZero ha, Nat.zero_mul, roundMag_zero]

theorem units_fneg (w : Word) : units (fneg w) = -units w := by
  cases h : sign w <;> simp [units, unitsMag_eq, h]

/-- Two finite words whose values cancel. -/
theorem fadd_of_units_add_eq_zero (ha : isFinite a = true) (hb : isFinite b = true) (h : units a + units b = 0) :
    fadd q a b = pack (sign a && sign b) 0 := by
  rw [fadd_of_isFinite q ha hb, if_pos h]

theorem fadd_fneg_self (ha : isFinite a = true) : fadd q a (fneg a) = zero := by
  rw [fadd_of_units_add_eq_zero q ha (by rwa [isFinite_fneg]) (by rw [units_fneg, add_neg_cancel]), sign_fneg,
    Bool.and_not_self]
  rfl

theorem units_of_isZero (h : isZero a = true) : units a = 0 := by
  simp [units, unitsMag_of_isZero h]

/-- The sum of two zeros. -/
theorem fadd_of_isZero (ha : isZero a = true) (hb : isZero b = true) : fadd q a b = pack (sign a && sign b) 0 :=
  fadd_of_units_add_eq_zero q (isFinite_of_isZero ha) (isFinite_of_isZero hb)
    (by rw [units_of_isZero ha, units_of_isZero hb, add_zero])

end

/-- Settles O52: the zeros by their sum, then a cancelling sum, a product and a quotient by the class of the operands. -/
theorem signsOfZeroResults : Obligations.SignsOfZeroResults := by
  have hpos : isZero 0x0000000000000000#64 = true := by decide
  have hneg : isZero 0x8000000000000000#64 = true := by decide
  refine ⟨fun q => ?_, fun q x hx => ⟨fadd_fneg_self q hx, fun _ => fadd_fneg_self q hx⟩, ?_, ?_⟩
  · simp only [fsub]
    rw [fadd_of_isZero q hpos hpos, fadd_of_isZero q hpos hneg, fadd_of_isZero q hneg hpos, fadd_of_isZero q hneg hneg,
      fadd_of_isZero q hpos (by rwa [isZero_fneg]), fadd_of_isZero q hpos (by rwa [isZero_fneg]),
      fadd_of_isZero q hneg (by rwa [isZero_fneg]), fadd_of_isZero q hneg (by rwa [isZero_fneg])]
    decide
  · intro q a b ha hb h
    simp [fmul_of_isZero q ha hb h]
  · rintro q a b ha (⟨hza, hb, hzb⟩ | hb)
    · simp [fdiv_of_isZero_left q hza hb hzb]
    · simp [fdiv_of_isInf_right q ha hb]

/-- Settles O53, by the classes of the operands. -/
theorem exceptionalResults : Obligations.ExceptionalResults := by
  intro q a b
  refine ⟨fun h => ?_, fun ha hb => ?_, fun ha hb => ⟨fdiv_of_isInf q ha hb, fun h => ?_, fun h => ?_⟩, fun ha hb => ?_,
    fun ha hb hz => ?_, fun ha hb => ?_, fun ha hb => ?_, fun ha hz hb => ?_⟩
  · have h' : isNaN a = true ∨ isNaN (fneg b) = true := by rwa [isNaN_fneg]
    exact ⟨fadd_of_isNaN q h, fadd_of_isNaN q h', fmul_of_isNaN q h, fdiv_of_isNaN q h⟩
  · have hna := isNaN_of_isFinite (isFinite_of_isZero ha)
    have hnb := isNaN_of_isInf hb
    rw [fmul_of_isInf q (.inr hb) hna hnb, fmul_of_isInf q (.inl hb) hnb hna]
    simp [ha]
  · rw [fsub, fadd_of_isInf q ha (by rwa [isInf_fneg]), fadd_of_isInf q ha hb]
    simp [h]
  · rw [fsub, fadd_of_isInf q ha hb, fadd_of_isInf q ha (by rwa [isInf_fneg])]
    simp [h]
  · have hb' : isFinite (fneg b) = true := by rwa [isFinite_fneg]
    exact ⟨fadd_of_isInf_left q ha hb, fadd_of_isInf_right q hb ha, fadd_of_isInf_left q ha hb',
      fadd_of_isInf_right q hb (by rwa [isInf_fneg])⟩
  · have hna := isNaN_of_isInf ha
    rw [fmul_of_isInf q (.inl ha) hna hb, fmul_of_isInf q (.inr ha) hb hna]
    simp [isZero_of_isInf ha, hz]
  · simp [fdiv_of_isInf_left q ha hb]
  · simp [fdiv_of_isZero_right q (isFinite_of_isZero ha) hb, ha]
  · simp [fdiv_of_isZero_right q ha hb, hz]

/-! ## Negation -/

theorem getLsbD_fneg (w : Word) (k : Nat) : (fneg w).getLsbD k = (w.getLsbD k ^^ decide (k = 63)) := by
  have hmask : (0x8000000000000000#64).getLsbD k = decide (k = 63) := by
    rw [show 0x8000000000000000#64 = BitVec.twoPow 64 63 by rfl, BitVec.getLsbD_twoPow]
    simp [eq_comm]
  rw [fneg, BitVec.getLsbD_xor, hmask]

/-- Settles O57: the mask of `fneg` is bit 63. -/
theorem negationFlipsTheSignBitOnly : Obligations.NegationFlipsTheSignBitOnly := by
  intro a
  exact ⟨by rw [getLsbD_fneg]; simp, fun k hk => by simp [getLsbD_fneg, hk]⟩

/-! ## Comparisons (R13) -/

/-- The value, in units, at a place in the order of the words. -/
def keyUnits (k : Int) : Int := k.sign * fieldUnits k.natAbs

theorem units_eq_keyUnits (w : Word) : units w = keyUnits (orderKey w) := by
  rw [units, keyUnits, orderKey, unitsMag_eq]
  rcases Nat.eq_zero_or_pos (mag w) with h | h
  · simp [h]
  · have hs : (mag w : Int).sign = 1 := Int.sign_eq_one_of_pos (by omega)
    split <;> simp [hs]

theorem keyUnits_strictMono : StrictMono keyUnits := by
  refine strictMono_of_odd_strictMonoOn_nonneg (fun k => by simp [keyUnits]) ?_
  have hnat (m : Nat) : keyUnits m = fieldUnits m := by
    rcases Nat.eq_zero_or_pos m with rfl | h
    · simp [keyUnits]
    · rw [keyUnits, Int.sign_eq_one_of_pos (by omega), one_mul, Int.natAbs_natCast]
  intro j hj k hk hlt
  obtain ⟨j, rfl⟩ := Int.eq_ofNat_of_zero_le hj
  obtain ⟨k, rfl⟩ := Int.eq_ofNat_of_zero_le hk
  rw [hnat, hnat]
  exact_mod_cast fieldUnits_strictMono (Int.ofNat_lt.mp hlt)

/-- The places of words are ordered as their values. -/
theorem toRat_lt_toRat_iff (a b : Word) : toRat a < toRat b ↔ orderKey a < orderKey b := by
  rw [toRat, toRat, div_lt_div_iff_of_pos_right unitsInOne_cast_pos, Int.cast_lt, units_eq_keyUnits, units_eq_keyUnits,
    keyUnits_strictMono.lt_iff_lt]

theorem toRat_eq_toRat_iff (a b : Word) : toRat a = toRat b ↔ orderKey a = orderKey b := by
  rw [toRat, toRat, div_left_inj' unitsInOne_cast_pos.ne', Int.cast_inj, units_eq_keyUnits, units_eq_keyUnits,
    keyUnits_strictMono.injective.eq_iff]

theorem flt_iff {a b : Word} (ha : isNaN a = false) (hb : isNaN b = false) :
    flt a b = decide (orderKey a < orderKey b) := by simp [flt, ha, hb]

theorem feq_iff {a b : Word} (ha : isNaN a = false) (hb : isNaN b = false) :
    feq a b = decide (orderKey a = orderKey b) := by simp [feq, ha, hb]

theorem orderKey_of_isInf {w : Word} (h : isInf w = true) : orderKey w = if sign w then -(infMag : Int) else infMag := by
  simp only [isInf, beq_iff_eq] at h
  rw [orderKey, h]

theorem orderKey_of_isFinite {w : Word} (h : isFinite w = true) :
    -(infMag : Int) < orderKey w ∧ orderKey w < infMag := by
  rw [isFinite_iff] at h
  rw [orderKey]
  split <;> omega

/-- Settles O55, by the places of the operands in the order of the words. -/
theorem comparisonsAreQuiet : Obligations.ComparisonsAreQuiet := by
  intro a b
  refine ⟨fun h => ?_, fun ha hb => ?_, fun ha hb => ?_, fun ha hb => ?_, rfl, rfl, by decide⟩
  · rcases h with h | h <;> simp [flt, fgt, feq, fne, h]
  · have hna := isNaN_of_isFinite ha
    have hnb := isNaN_of_isFinite hb
    simp [fgt, flt_iff, feq_iff, hna, hnb, toRat_lt_toRat_iff, toRat_eq_toRat_iff]
  · have hna := isNaN_of_isFinite ha
    have hnb := isNaN_of_isInf hb
    obtain ⟨hlow, hhigh⟩ := orderKey_of_isFinite ha
    rw [fgt, flt_iff hna hnb, flt_iff hnb hna, feq_iff hna hnb, orderKey_of_isInf hb]
    cases sign b <;> simp <;> omega
  · have hna := isNaN_of_isInf ha
    have hnb := isNaN_of_isInf hb
    rw [flt_iff hna hnb, feq_iff hna hnb, orderKey_of_isInf ha, orderKey_of_isInf hb]
    cases sign a <;> cases sign b <;> decide

end Sys2Proof.Machine.B64

namespace Sys2Proof.Machine

/-! ## The stops of the machine -/

/-- Every operation but CONSTRUCT goes through `onInstance`. -/
theorem exec_eq_onInstance (i : Instr) (s : State) (h : isConstruct i = false) : ∃ f, exec i s = onInstance s f := by
  cases i with
  | construct r => cases h
  | reset => exact ⟨_, rfl⟩
  | nop => exact ⟨_, rfl⟩
  | process x => exact ⟨_, rfl⟩
  | rdtap idx => exact ⟨_, rfl⟩
  | rdgain => exact ⟨_, rfl⟩
  | rdsr idx => exact ⟨_, rfl⟩
  | rdcfg idx => exact ⟨_, rfl⟩
  | illegal67 op => exact ⟨_, rfl⟩
  | illegal8F op => exact ⟨_, rfl⟩

theorem eq_construct_of_isConstruct (i : Instr) (h : isConstruct i = true) : ∃ r, i = .construct r := by
  cases i with
  | construct r => exact ⟨r, rfl⟩
  | _ => cases h

theorem execConstruct_some (r : Record) (s : State) (i : Instance) (h : s.inst = some i) :
    execConstruct r s = .fault .instanceExists := by
  simp [execConstruct, h]

theorem execConstruct_none (r : Record) (s : State) (h : s.inst = none) : ∃ t, execConstruct r s = .next t := by
  unfold execConstruct
  rw [h]
  cases validateRecord r s.draws with
  | error c => exact ⟨_, rfl⟩
  | ok kind => exact ⟨_, rfl⟩

/-- Settles O9: CONSTRUCT faults where there is a filter already, every other operation where there is none. -/
theorem stopsAreExactlyTheImpossibleCases : Obligations.StopsAreExactlyTheImpossibleCases := by
  intro i s
  cases hc : isConstruct i with
  | true =>
    obtain ⟨r, rfl⟩ := eq_construct_of_isConstruct i hc
    change (execConstruct r s = _ ↔ _) ∧ (execConstruct r s = _ ↔ _) ∧ ∀ _, execConstruct r s ≠ _
    cases hs : s.inst with
    | some j => simp [execConstruct_some r s j hs]
    | none =>
      obtain ⟨t, ht⟩ := execConstruct_none r s hs
      simp [ht]
  | false =>
    obtain ⟨f, hf⟩ := exec_eq_onInstance i s hc
    rw [hf]
    cases hs : s.inst with
    | some j => simp [onInstance_some s j f hs]
    | none => simp [onInstance_none s f hs]

end Sys2Proof.Machine
end

section
/-! PROOFS. The sine of B64 has its guaranteed properties (`spec/00_scope.md` R15). -/

namespace Sys2Proof.Machine.B64

/-! ## Symmetry and the operands that are no positive finite word -/

theorem sinUlp_pos : 0 < sinUlp := by
  unfold sinUlp
  split_ifs with h
  · exact one_pos
  · exact not_le.mp h
  · exact not_le.mp h
  · exact one_pos

theorem fsin_of_sign_false {x : Word} (hn : isNaN x = false) (hs : sign x = false) : fsin x = sineOfPositive x := by
  simp [fsin, hn, hs]

theorem fsin_of_sign_true {x : Word} (hn : isNaN x = false) (hs : sign x = true) :
    fsin x = fneg (sineOfPositive (fneg x)) := by
  simp [fsin, hn, hs]

/-- S2: the sine is odd. -/
theorem fsin_fneg (x : Word) (hn : isNaN x = false) : fsin (fneg x) = fneg (fsin x) := by
  have hn' : isNaN (fneg x) = false := by rwa [isNaN_fneg]
  cases hs : sign x with
  | false => rw [fsin_of_sign_false hn hs, fsin_of_sign_true hn' (by simp [hs]), fneg_fneg]
  | true => rw [fsin_of_sign_true hn hs, fsin_of_sign_false hn' (by simp [hs]), fneg_fneg]

theorem isQuietNaN_fneg (w : Word) : isQuietNaN (fneg w) = isQuietNaN w := by
  simp only [isQuietNaN, isNaN_fneg, getLsbD_fneg]
  simp

theorem sineOfPositive_of_isInf {x : Word} (h : isInf x = true) : sineOfPositive x = quietNaN (Config.sineNaN x) := by
  simp [sineOfPositive, isZero_of_isInf h, h]

/-- S4: NaNs and infinities have no sine. -/
theorem isQuietNaN_fsin (x : Word) (h : isNaN x = true ∨ isInf x = true) : isQuietNaN (fsin x) = true := by
  rcases h with h | h
  · rw [fsin, if_pos h, isQuietNaN_quietNaN]
  · have hn := isNaN_of_isInf h
    cases hs : sign x with
    | false => rw [fsin_of_sign_false hn hs, sineOfPositive_of_isInf h, isQuietNaN_quietNaN]
    | true =>
      rw [fsin_of_sign_true hn hs, isQuietNaN_fneg, sineOfPositive_of_isInf (by rwa [isInf_fneg]), isQuietNaN_quietNaN]

/-! ## The spacing of binary64 values -/

theorem ulp_eq (y : ℚ) : ulp y = 2 ^ ulpExp ⌊y * unitsInOne⌋₊ / unitsInOne := by
  simp only [ulp, Nat.one_shiftLeft, Int.floor_toNat]
  push_cast; rfl

/-- The spacing grows with the magnitude. -/
theorem ulp_le_ulpReal {v : ℚ} {y : ℝ} (h : (v : ℝ) ≤ |y|) : ((ulp v : ℚ) : ℝ) ≤ ulpReal y := by
  have hU : (0 : ℝ) < unitsInOne := by exact_mod_cast unitsInOne_pos
  have hfloor : ⌊v * unitsInOne⌋₊ ≤ ⌊|y| * (unitsInOne : ℝ)⌋₊ := by
    have hcast : ((v * unitsInOne : ℚ) : ℝ) ≤ |y| * unitsInOne := by
      rw [Rat.cast_mul, Rat.cast_natCast]; exact mul_le_mul_of_nonneg_right h hU.le
    rw [← Int.floor_toNat, ← Rat.floor_cast (α := ℝ), Int.floor_toNat]
    exact Nat.floor_mono hcast
  rw [ulp_eq, ulpReal, Int.floor_toNat, Rat.cast_div, Rat.cast_pow, Rat.cast_ofNat, Rat.cast_natCast, Nat.cast_pow,
    Nat.cast_ofNat]
  refine div_le_div_of_nonneg_right (pow_le_pow_right₀ one_le_two (ulpExp_mono hfloor)) hU.le

/-- The spacing is far above the error of the power series. -/
theorem sineError_le_ulp (v : ℚ) : 4 * ((sineError 0 : ℚ) : ℝ) ≤ ((ulp v : ℚ) : ℝ) := by
  have hU : ((unitsInOne : ℕ) : ℝ) = 2 ^ 1074 := by simp only [unitsInOne_eq, Nat.cast_pow, Nat.cast_ofNat]
  have hpow : (1 : ℝ) ≤ 2 ^ ulpExp ⌊v * unitsInOne⌋₊ := one_le_pow₀ one_le_two
  rw [sineError_real, ulp_eq, Rat.cast_div, Rat.cast_pow, Rat.cast_ofNat, Rat.cast_natCast, hU,
    show 1080 + 0 = 6 + 1074 by rfl, pow_add]
  have hpos : (0 : ℝ) < 2 ^ 1074 := by positivity
  generalize (2 : ℝ) ^ 1074 = U at *
  rw [le_div_iff₀ hpos]
  calc 4 * (1 / (2 ^ 6 * U)) * U = 1 / 16 := by field_simp; norm_num
    _ ≤ _ := by linarith

/-! ## What S3 and S5 ask of the sine of a finite word -/

/-- `y` meets S3 and S5 as the sine of `x`. -/
def MeetsSine (x y : Word) : Prop :=
  isFinite y = true ∧
    |toReal y - Real.sin (toReal x)| ≤ (sinUlp : ℝ) * ulpReal (Real.sin (toReal x)) ∧ |toRat y| ≤ 1

theorem toReal_fneg (w : Word) : toReal (fneg w) = -toReal w := by
  simp [toReal, toRat_fneg]

theorem MeetsSine.fneg {x y : Word} (h : MeetsSine x y) : MeetsSine (fneg x) (fneg y) := by
  obtain ⟨hfin, herr, hone⟩ := h
  refine ⟨by rwa [isFinite_fneg], ?_, by rwa [toRat_fneg, abs_neg]⟩
  rw [toReal_fneg, toReal_fneg, Real.sin_neg, neg_sub_neg, abs_sub_comm, ulpReal, abs_neg]
  exact herr

theorem ulpReal_nonneg (y : ℝ) : 0 ≤ ulpReal y := by
  unfold ulpReal; positivity

theorem meetsSine_of_isZero {x : Word} (h : isZero x = true) : MeetsSine x x := by
  have h0 : toRat x = 0 := (toRat_eq_zero_iff x).mpr h
  refine ⟨isFinite_of_isZero h, ?_, by simp [h0]⟩
  have hpos : (0 : ℝ) ≤ sinUlp := by exact_mod_cast sinUlp_pos.le
  simpa [toReal, h0] using mul_nonneg hpos (ulpReal_nonneg 0)

section
variable {x : Word} (hx : 0 ≤ toRat x)
include hx

/-- The power series against the sine of a positive word. -/
theorem abs_sineApprox_sub_sin_toReal_le (k : Nat) :
    |((sineApprox k (toRat x) : ℚ) : ℝ) - Real.sin (toReal x)| ≤ ((sineError k : ℚ) : ℝ) :=
  abs_sineApprox_sub_sin_le k (toRat x) hx

/-- `sineMagLow` is a lower bound of the magnitude of the sine. -/
theorem sineMagLow_le_abs_sin (k : Nat) : ((sineMagLow k x : ℚ) : ℝ) ≤ |Real.sin (toReal x)| := by
  have herr := abs_sineApprox_sub_sin_toReal_le hx k
  have htri := abs_sub_abs_le_abs_sub ((sineApprox k (toRat x) : ℚ) : ℝ) (Real.sin (toReal x))
  rw [sineMagLow, Rat.cast_max, Rat.cast_zero, Rat.cast_sub, Rat.cast_abs]
  exact max_le (abs_nonneg _) (by linarith)

/-- What is seen to meet `SIN_ULP` and S5 meets them. -/
theorem meetsSine_of_sineAdmits {y : Word} (h : sineAdmits sinUlp x y = true) : MeetsSine x y := by
  simp only [sineAdmits, Bool.and_eq_true, decide_eq_true_eq] at h
  obtain ⟨⟨hfin, hone⟩, hseen⟩ := h
  refine ⟨hfin, ?_, hone⟩
  have hseen' : |toReal y - ((sineApprox (Config.sinePrecision x) (toRat x) : ℚ) : ℝ)| +
      ((sineError (Config.sinePrecision x) : ℚ) : ℝ) ≤
      sinUlp * ((ulp (sineMagLow (Config.sinePrecision x) x) : ℚ) : ℝ) := by
    unfold toReal; exact_mod_cast hseen
  have herr := abs_sineApprox_sub_sin_toReal_le hx (Config.sinePrecision x)
  have hulp := ulp_le_ulpReal (sineMagLow_le_abs_sin hx (Config.sinePrecision x))
  have hpos : (0 : ℝ) ≤ sinUlp := by exact_mod_cast sinUlp_pos.le
  calc |toReal y - Real.sin (toReal x)| ≤ _ := abs_sub_le _ _ _
    _ ≤ _ := add_le_add_right herr _
    _ ≤ _ := hseen'
    _ ≤ _ := mul_le_mul_of_nonneg_left hulp hpos

end

/-! ### The nearest binary64 value -/

/-- The power series is within its error of `sineMagLow` with the sign of the power series. -/
theorem abs_signed_sineMagLow_sub_le (k : Nat) (x : Word) :
    |signed (decide (sineApprox k (toRat x) < 0)) (sineMagLow k x) - sineApprox k (toRat x)| ≤ sineError k := by
  have herr : 0 ≤ sineError k := by unfold sineError; positivity
  obtain ⟨A, hA⟩ : ∃ A, A = sineApprox k (toRat x) := ⟨_, rfl⟩
  have hdist : |signed (decide (A < 0)) (sineMagLow k x) - A| = |sineMagLow k x - abs A| := by
    rw [← abs_signed (decide (A < 0)) (_ - abs A), ← signed_sub, signed_abs]
  rw [← hA, hdist, sineMagLow, ← hA, abs_le]
  rcases max_cases 0 (|A| - sineError k) with ⟨h, hle⟩ | ⟨h, hle⟩ <;> rw [h] <;>
    constructor <;> linarith [abs_nonneg A]

/-- Rounding a number of the unit interval: it stays there, and moves at most half a unit in the last place. -/
theorem roundMag_of_le_one {v : ℚ} (h0 : 0 ≤ v) (h1 : v ≤ 1) {m : Nat}
    (hm : m = roundMag (v * unitsInOne).num.natAbs (v * unitsInOne).den) :
    m < infMag ∧ |(fieldUnits m : ℚ) / unitsInOne - v| ≤ ulp v / 2 ∧ (fieldUnits m : ℚ) / unitsInOne ≤ 1 := by
  have hU := unitsInOne_cast_pos
  obtain ⟨y, hy⟩ : ∃ y, y = v * unitsInOne := ⟨_, rfl⟩
  have hy0 : 0 ≤ y := hy ▸ mul_nonneg h0 hU.le
  have hv : y / unitsInOne = v := by rw [hy, mul_div_cancel_right₀ _ hU.ne']
  have hquot : (y.num.natAbs : ℚ) / y.den = y := by
    rw [Nat.cast_natAbs, abs_of_nonneg (Rat.num_nonneg.mpr hy0), Rat.num_div_den]
  have hfloor : y.num.natAbs / y.den = ⌊y⌋₊ := by
    rw [← Nat.floor_div_eq_div (K := ℚ), hquot]
  have hfin : roundField y.num.natAbs y.den < infMag := by
    rw [← not_le, infMag_le_roundField_iff _ _ y.den_pos, hquot, hv, not_le]
    refine h1.trans_lt (lt_of_lt_of_le ?_ two_pow_53_le_overflowBound)
    norm_num
  rw [← hy, roundMag_eq, min_eq_left hfin.le] at hm
  have hdist (m' : Nat) : |(fieldUnits m' : ℚ) / unitsInOne - v| = |(fieldUnits m' : ℚ) - y| / unitsInOne := by
    rw [← hv, ← sub_div, abs_div, abs_of_pos hU]
  refine ⟨hm ▸ hfin, ?_, ?_⟩
  · have herr := abs_fieldUnits_roundField_sub_le y.num.natAbs y.den y.den_pos
    rw [← hm, hquot, hfloor] at herr
    rw [hdist, ulp_eq, ← hy, div_right_comm]
    exact div_le_div_of_nonneg_right herr hU.le
  · obtain ⟨one, -, hone⟩ := exists_fieldUnits_eq 1 (by decide)
    have hnear := (roundField_nearest y.num.natAbs y.den y.den_pos one).1
    have hy1 : y ≤ unitsInOne := hy ▸ mul_le_of_le_one_left hU.le h1
    rw [← hm, hquot, hone, Nat.one_mul, abs_of_nonneg (sub_nonneg.mpr hy1)] at hnear
    rw [div_le_one hU]
    linarith [le_abs_self ((fieldUnits m : ℚ) - y)]

/-- The nearest binary64 value meets every bound from 1 on. -/
theorem meetsSine_sineNearest {x : Word} (hx : 0 ≤ toRat x) (hulp : 1 ≤ sinUlp) : MeetsSine x (sineNearest x) := by
  obtain ⟨v, hv⟩ : ∃ v, v = sineMagLow 0 x := ⟨_, rfl⟩
  obtain ⟨s, hs⟩ : ∃ s, s = decide (sineApprox 0 (toRat x) < 0) := ⟨_, rfl⟩
  obtain ⟨m, hm⟩ : ∃ m, m = roundMag (v * unitsInOne).num.natAbs (v * unitsInOne).den := ⟨_, rfl⟩
  have hsin : (v : ℝ) ≤ |Real.sin (toReal x)| := hv ▸ sineMagLow_le_abs_sin hx 0
  have h0 : 0 ≤ v := hv ▸ le_max_left _ _
  have h1 : v ≤ 1 := by exact_mod_cast hsin.trans (Real.abs_sin_le_one _)
  obtain ⟨hfin, herr, hone⟩ := roundMag_of_le_one h0 h1 hm
  have hy : sineNearest x = pack s m := by rw [hm, hv, hs]; rfl
  have hval : toRat (pack s m) = signed s (fieldUnits m / unitsInOne) := toRat_pack s m hfin.le
  have hround : |toRat (pack s m) - signed s v| ≤ ulp v / 2 := by
    rw [hval, signed_sub, abs_signed]; exact herr
  have hlow : |signed s v - sineApprox 0 (toRat x)| ≤ sineError 0 := by
    rw [hs, hv]; exact abs_signed_sineMagLow_sub_le 0 x
  have happrox : |toRat (pack s m) - sineApprox 0 (toRat x)| ≤ ulp v / 2 + sineError 0 :=
    (abs_sub_le _ _ _).trans (add_le_add hround hlow)
  have happrox' : |toReal (pack s m) - ((sineApprox 0 (toRat x) : ℚ) : ℝ)| ≤
      ((ulp v : ℚ) : ℝ) / 2 + ((sineError 0 : ℚ) : ℝ) := by
    unfold toReal; exact_mod_cast happrox
  have hseries := abs_sineApprox_sub_sin_toReal_le hx 0
  have hsmall := sineError_le_ulp v
  have hulp' : (1 : ℝ) ≤ sinUlp := by exact_mod_cast hulp
  rw [hy]
  refine ⟨?_, ?_, ?_⟩
  · rwa [isFinite_iff, mag_pack s m (hfin.trans (by decide))]
  · calc |toReal (pack s m) - Real.sin (toReal x)| ≤ _ := abs_sub_le _ _ _
      _ ≤ _ := add_le_add happrox' hseries
      _ ≤ ((ulp v : ℚ) : ℝ) := by linarith
      _ ≤ ulpReal (Real.sin (toReal x)) := ulp_le_ulpReal hsin
      _ ≤ _ := le_mul_of_one_le_left (ulpReal_nonneg _) hulp'
  · rw [hval, abs_signed, abs_of_nonneg (div_nonneg (Nat.cast_nonneg _) unitsInOne_cast_pos.le)]
    exact hone

/-! ### The sine of a finite word -/

theorem toRat_nonneg {x : Word} (h : sign x = false) : 0 ≤ toRat x := by
  rw [toRat_eq_signed, h]
  exact div_nonneg (Nat.cast_nonneg _) unitsInOne_cast_pos.le

/-- A bound below 1 is one that `Config.sineRaw` is seen to meet everywhere, so the nearest value is not needed for it. -/
theorem one_le_sinUlp_of_not_sineAdmits {x : Word} (hs : sign x = false) (hz : isZero x = false)
    (hfin : isFinite x = true) (h : ¬ sineAdmits sinUlp x (Config.sineRaw x) = true) : 1 ≤ sinUlp := by
  refine sinUlp_cases.resolve_right fun hmeets => h ?_
  simp only [sineMeets, decide_eq_true_eq] at hmeets
  exact hmeets x hs hz hfin

theorem meetsSine_sineOfPositive {x : Word} (hs : sign x = false) (hfin : isFinite x = true) :
    MeetsSine x (sineOfPositive x) := by
  have hx := toRat_nonneg hs
  simp only [sineOfPositive, isInf_of_isFinite hfin, Bool.false_eq_true, if_false]
  split_ifs with hz hadmits
  · exact meetsSine_of_isZero hz
  · exact meetsSine_of_sineAdmits hx hadmits
  · exact meetsSine_sineNearest hx (one_le_sinUlp_of_not_sineAdmits hs (by simpa using hz) hfin hadmits)

/-- S3 and S5: on positive words by construction, on negative ones by oddness. -/
theorem meetsSine_fsin {x : Word} (hfin : isFinite x = true) : MeetsSine x (fsin x) := by
  have hn := isNaN_of_isFinite hfin
  cases hs : sign x with
  | false => rw [fsin_of_sign_false hn hs]; exact meetsSine_sineOfPositive hs hfin
  | true =>
    have h := meetsSine_sineOfPositive (x := fneg x) (by simp [hs]) (by rwa [isFinite_fneg])
    rw [fsin_of_sign_true hn hs]
    simpa using h.fneg

/-- S1: a zero is its own sine. -/
theorem fsin_of_isZero {x : Word} (h : isZero x = true) : fsin x = x := by
  have hn := isNaN_of_isFinite (isFinite_of_isZero h)
  cases hs : sign x with
  | false => rw [fsin_of_sign_false hn hs, sineOfPositive, if_pos h]
  | true => rw [fsin_of_sign_true hn hs, sineOfPositive, if_pos (by rwa [isZero_fneg]), fneg_fneg]

/-- Settles O56, property by property; S3 and S5 from the error of the power series and of its rounding. -/
theorem sineHasItsGuaranteedProperties : Obligations.SineHasItsGuaranteedProperties := by
  refine ⟨sinUlp_pos, ⟨fsin_of_isZero (by decide), fsin_of_isZero (by decide)⟩, fsin_fneg, fun x hx => ?_,
    isQuietNaN_fsin, fun x hx => ?_⟩
  · obtain ⟨hfin, herr, -⟩ := meetsSine_fsin hx
    exact ⟨hfin, herr⟩
  · obtain ⟨-, -, hone⟩ := meetsSine_fsin hx
    exact hone

end Sys2Proof.Machine.B64
end

section
/-! PROOFS. The constructed filter in a run (`spec/10_state.md` R20 to R25, R30): what an operation makes of it, the invariants
that every step keeps, and the contents of the shift register. -/

namespace Sys2Proof.Machine

/-! ## What an operation makes of the filter -/

/-- The register of `n` entries that an operation leaves where it finds `sr` (R21, R111, R181). -/
def srAfter (n : Nat) (sr : List Word) : Instr → List Word
  | .process x => shiftIn n x sr
  | .reset => zeroSr n
  | _ => sr

theorem srAfter_of_not_writesSr {op : Instr} (h : writesSr op = false) (n : Nat) (sr : List Word) :
    srAfter n sr op = sr := by
  cases op with
  | process x => cases h
  | reset => cases h
  | _ => rfl

theorem srAfter_length {n : Nat} {sr : List Word} (h : sr.length = n) (op : Instr) : (srAfter n sr op).length = n := by
  cases op with
  | process x => exact shiftIn_length n x sr h
  | reset => exact zeroSr_length n
  | _ => exact h

/-- An operation that completes on a constructed filter writes its shift register and nothing else of it (R21, R23 to R25). -/
theorem exec_next_inst {op : Instr} {s t : State} {i : Instance} (h : exec op s = .next t) (hi : s.inst = some i) :
    t.inst = some (i.writeSr (srAfter i.N i.sr op)) := by
  obtain ⟨r, rfl, hc⟩ | ⟨j, x, rfl, hj, rfl⟩ | ⟨j, rfl, hj, rfl⟩ | ⟨j, st, d, hw, -, hj, rfl⟩ := exec_next_cases op s t h
  · rw [execConstruct_some r s i hi] at hc
    cases hc
  · obtain rfl : i = j := Option.some.inj (hi.symm.trans hj)
    rfl
  · obtain rfl : i = j := Option.some.inj (hi.symm.trans hj)
    rfl
  · rw [srAfter_of_not_writesSr hw, Instance.writeSr_self, State.respond_inst, hi]

/-- Every operation but CONSTRUCT completes where there is a filter. -/
theorem exec_completes {op : Instr} {s : State} {i : Instance} (hop : isConstruct op = false) (hi : s.inst = some i) :
    ∃ t, exec op s = .next t := by
  obtain ⟨f, hf⟩ := exec_eq_onInstance op s hop
  exact ⟨f i, by rw [hf, onInstance_some s i f hi]⟩

/-- Settles O48: the register after an operation that `writesSr` excludes is the register before it. -/
theorem onlyProcessAndResetWriteTheRegister : Obligations.OnlyProcessAndResetWriteTheRegister := by
  intro op s t i j h hi hj hne
  have hsr : j.sr = srAfter i.N i.sr op := by
    obtain rfl := Option.some.inj (hj.symm.trans (exec_next_inst h hi))
    rfl
  cases op with
  | process x => exact .inr ⟨x, rfl⟩
  | reset => exact .inl rfl
  | _ => exact absurd hsr hne

/-! ## The constants over any number of steps -/

theorem step_next_inst {s t : State} {i : Instance} (h : step s = .next t) (hi : s.inst = some i) :
    ∃ sr, t.inst = some (i.writeSr sr) := by
  obtain rfl | rfl | ⟨op, hop⟩ := step_next_cases s t h
  · exact ⟨i.sr, hi⟩
  · exact ⟨i.sr, hi⟩
  · exact ⟨_, exec_next_inst hop hi⟩

/-- A run of `k + 1` steps that completes is a step that completes and then a run of `k` steps. -/
theorem run_succ_next {M : Host.Core} {k : Nat} {s t : M.State} (h : M.run (k + 1) s = .next t) :
    ∃ u, M.step s = .next u ∧ M.run k u = .next t := by
  rw [Host.Core.run] at h
  split at h
  · next u hu => exact ⟨u, hu, h⟩
  · cases h
  · cases h

/-- Settles O47, by induction on the number of steps: each writes the register at most, and a write of the register
replaces an earlier one. -/
theorem constantsNeverChange : Obligations.ConstantsNeverChange := by
  intro k
  induction k with
  | zero =>
    intro s t i hi h
    cases h
    exact ⟨i.sr, hi⟩
  | succ k ih =>
    intro s t i hi h
    obtain ⟨u, hu, ht⟩ := run_succ_next h
    obtain ⟨sr, hsr⟩ := step_next_inst hu hi
    exact ih u t (i.writeSr sr) hsr ht

/-! ## Invariants of the filter -/

/-- A property of `Instance` that CONSTRUCT establishes, that fixes the length of the register and that survives every
write of a register of that length, is kept by every step. -/
theorem step_keeps_inst {P : Instance → Prop} (hlen : ∀ i, P i → i.sr.length = i.N)
    (hwrite : ∀ i sr, P i → sr.length = i.N → P (i.writeSr sr))
    (hbuild : ∀ r kind d, validateRecord r d = .ok kind → P (buildInstance r kind d))
    {s t : State} (hs : ∀ i, s.inst = some i → P i) (h : step s = .next t) : ∀ i, t.inst = some i → P i := by
  obtain rfl | rfl | ⟨op, hop⟩ := step_next_cases s t h
  · exact hs
  · exact hs
  · intro j hj
    cases hi : s.inst with
    | some i =>
      obtain rfl := Option.some.inj (hj.symm.trans (exec_next_inst hop hi))
      have hP := hs i hi
      exact hwrite i _ hP (srAfter_length (hlen i hP) op)
    | none =>
      obtain ⟨r, -, hc⟩ | ⟨i, x, -, hi', -⟩ | ⟨i, -, hi', -⟩ | ⟨i, st, d, -, -, hi', -⟩ :=
        exec_next_cases op s.takeInput t hop
      · obtain ⟨-, ⟨c, -, rfl⟩ | ⟨kind, hv, rfl⟩⟩ := execConstruct_next r _ t hc
        · rw [State.raiseInvalidParameter_inst, State.takeInput_inst, hi] at hj
          cases hj
        · obtain rfl := Option.some.inj hj
          exact hbuild r kind _ hv
      all_goals
        rw [State.takeInput_inst, hi] at hi'
        cases hi'

theorem Instance.Designed.sr_length {i : Instance} (h : i.Designed) : i.sr.length = i.N := by
  obtain ⟨kind, q, -, -, -, -, -, -, hsr⟩ := h
  exact hsr

/-- The invariant says nothing of the register but its length. -/
theorem Instance.Designed.writeSr {i : Instance} (h : i.Designed) {sr : List Word} (hsr : sr.length = i.N) :
    (i.writeSr sr).Designed := by
  obtain ⟨kind, q, hq, hv, hl, hp, ht, hg, -⟩ := h
  exact ⟨kind, q, hq, hv, hl, hp, ht, hg, hsr⟩

/-- CONSTRUCT establishes the invariant, with its own draws as the quiet NaNs. -/
theorem buildInstance_designed {r : Record} {kind : FilterKind} {d : Nat} (h : validateRecord r d = .ok kind) :
    (buildInstance r kind d).Designed := by
  refine ⟨kind, fun k => B64.quietNaN (Config.freeNaN (d + k)), fun k => B64.isQuietNaN_quietNaN _, h, rfl, rfl, ?_, ?_,
    zeroSr_length _⟩
  · simp only [← Nat.add_assoc]
    rfl
  · simp only [← Nat.add_assoc]
    rfl

/-- Settles O44: the invariant is one of those that `step_keeps_inst` speaks of. -/
theorem stepKeepsDesign : Obligations.StepKeepsDesign := fun _ _ hs h =>
  step_keeps_inst (fun _ hi => hi.sr_length) (fun _ _ hi => hi.writeSr) (fun _ _ _ => buildInstance_designed) hs h

/-! ## The canonical form -/

theorem le_two_of_kindOfNumber {k : Nat} {kind : FilterKind} (h : kindOfNumber k = some kind) : k ≤ 2 := by
  unfold kindOfNumber at h
  split at h
  · decide
  · decide
  · decide
  · cases h

/-- A record that passes validation has passed checks 7 and 8 (R87, R88). -/
theorem validate_ok {F : Type} {num : Num F} {k : Nat} {n : Int} {fs f0 f1 : F} {kind : FilterKind}
    (h : validate num k n fs f0 f1 = .ok kind) : (0 < n ∧ n ≤ Config.maxTaps) ∧ kindOfNumber k = some kind := by
  simp only [validate] at h
  split_ifs at h with _ _ _ _ _ _ hn
  split at h
  · cases h
  · next k' hk => exact ⟨hn, by cases h; exact hk⟩

@[simp] theorem tapVector_length {F : Type} (numAt : Nat → Num F) (kind : FilterKind) (N : Nat) (lambda phi : F) :
    (tapVector numAt kind N lambda phi).length = N := by
  simp [tapVector]

/-- Settles O45: validation bounds `N` and the kind, and there is one tap for each `n` below `N`. -/
theorem designedInstanceIsWellFormed : Obligations.DesignedInstanceIsWellFormed := by
  rintro i ⟨kind, q, -, hv, -, -, htaps, -, hsr⟩
  obtain ⟨⟨hpos, hmax⟩, hkind⟩ := validate_ok hv
  exact i.wf_iff.mpr ⟨hpos, hmax, by rw [htaps, tapVector_length], hsr, le_two_of_kindOfNumber hkind⟩

theorem Memory.wf_iff (s : State) : Memory.wf s = true ↔ ∀ i, s.inst = some i → i.wf = true := by
  unfold Memory.wf
  cases s.inst <;> simp

theorem Instance.sr_length_of_wf {i : Instance} (h : i.wf = true) : i.sr.length = i.N := by
  obtain ⟨-, -, -, hsr, -⟩ := i.wf_iff.mp h
  exact hsr

/-- Settles O46: the canonical form is another of those properties, and CONSTRUCT establishes it because what it builds
is designed. -/
theorem stepKeepsMemoryForm : Obligations.StepKeepsMemoryForm := by
  intro s t hs h
  rw [Memory.wf_iff] at hs ⊢
  exact step_keeps_inst (fun _ => Instance.sr_length_of_wf) Instance.wf_writeSr
    (fun _ _ _ hv => designedInstanceIsWellFormed _ (buildInstance_designed hv)) hs h

/-! ## The contents of the shift register -/

/-- The register of `n` entries that has seen the samples `xs` since it was last clear: the latest of them, the most
recent first, and `ZERO` where there was none yet (R20, R30). -/
def latest (n : Nat) (xs : List Word) : List Word := (xs.reverse ++ List.replicate n B64.zero).take n

theorem latest_nil (n : Nat) : latest n [] = List.replicate n B64.zero := by simp [latest]

/-- A push adds its sample to those the register has seen: what falls out at the end was cut off before. -/
theorem shiftIn_latest (n : Nat) (x : Word) (xs : List Word) : shiftIn n x (latest n xs) = latest n (xs ++ [x]) := by
  cases n with
  | zero => rfl
  | succ n =>
    have htake (l : List Word) : (l.take (n + 1)).take n = l.take n := by
      rw [List.take_take, Nat.min_eq_left n.le_succ]
    simp only [shiftIn, latest, List.reverse_append, List.reverse_singleton, List.cons_append, List.nil_append,
      List.take_succ_cons, htake]

theorem samplesSinceReset_cons (op : Instr) (prog : List Instr) (acc : List Word) :
    samplesSinceReset (op :: prog) acc = samplesSinceReset prog (samplesSinceReset [op] acc) := by
  cases op <;> rfl

/-- What one operation does to a register that has seen the samples `acc`. -/
theorem srAfter_latest (n : Nat) (acc : List Word) (op : Instr) :
    srAfter n (latest n acc) op = latest n (samplesSinceReset [op] acc) := by
  cases op with
  | process x => exact shiftIn_latest n x acc
  | reset => exact (latest_nil n).symm
  | _ => rfl

/-- A run without CONSTRUCT completes, and the register has seen the samples since the last RESET. -/
theorem runInstrs_latest {i : Instance} {prog : List Instr} (hprog : ∀ op ∈ prog, isConstruct op = false) {s : State}
    {acc : List Word} (hi : s.inst = some (i.writeSr (latest i.N acc))) :
    ∃ t, runInstrs prog s = .next t ∧ t.inst = some (i.writeSr (latest i.N (samplesSinceReset prog acc))) := by
  induction prog generalizing s acc with
  | nil => exact ⟨s, rfl, hi⟩
  | cons op prog ih =>
    obtain ⟨hop, hrest⟩ := List.forall_mem_cons.mp hprog
    obtain ⟨u, hu⟩ := exec_completes hop hi
    have hui : u.inst = some (i.writeSr (latest i.N (samplesSinceReset [op] acc))) := by
      rw [exec_next_inst hu hi, ← srAfter_latest]
      rfl
    obtain ⟨t, ht, hti⟩ := ih hrest hui
    exact ⟨t, by rw [runInstrs, hu]; exact ht, by rw [samplesSinceReset_cons]; exact hti⟩

/-- The register of the reset state has seen no sample. -/
theorem Instance.eq_writeSr_latest_nil {i : Instance} (h : i.sr = List.replicate i.N B64.zero) :
    i = i.writeSr (latest i.N []) := by
  rw [latest_nil, ← h, Instance.writeSr_self]

/-- Settles O23: the run starts with a register that has seen no sample. -/
theorem registerDependsOnSamplesSinceReset : Obligations.RegisterDependsOnSamplesSinceReset := by
  intro s i prog hi _ hsr hprog
  exact runInstrs_latest hprog (hi.trans (congrArg some (Instance.eq_writeSr_latest_nil hsr)))

theorem samplesSinceReset_feed (xs acc : List Word) : samplesSinceReset (feed xs) acc = acc ++ xs := by
  induction xs generalizing acc with
  | nil => exact (List.append_nil acc).symm
  | cons x xs ih =>
    calc samplesSinceReset (feed (x :: xs)) acc = samplesSinceReset (feed xs) (acc ++ [x]) := rfl
      _ = acc ++ x :: xs := by rw [ih, List.append_assoc, List.singleton_append]

theorem isConstruct_of_mem_feed {xs : List Word} {op : Instr} (h : op ∈ feed xs) : isConstruct op = false := by
  obtain ⟨x, -, rfl⟩ := List.mem_map.mp h
  rfl

theorem latest_length (n : Nat) (xs : List Word) : (latest n xs).length = n := by simp [latest]

theorem latest_getElem?_of_lt {n j : Nat} {xs : List Word} (h : j < min xs.length n) :
    (latest n xs)[j]? = xs[xs.length - 1 - j]? := by
  obtain ⟨hxs, hn⟩ := lt_min_iff.mp h
  rw [latest, List.getElem?_take_of_lt hn, List.getElem?_append_left (by simpa using hxs), List.getElem?_reverse hxs]

theorem latest_getElem?_of_ge {n j : Nat} {xs : List Word} (hge : min xs.length n ≤ j) (hn : j < n) :
    (latest n xs)[j]? = some B64.zero := by
  have hxs : xs.length ≤ j := (min_le_iff.mp hge).resolve_right hn.not_ge
  rw [latest, List.getElem?_take_of_lt hn, List.getElem?_append_right (by simpa using hxs), List.length_reverse,
    List.getElem?_replicate_of_lt (by omega)]

/-- Settles O22: of a stream of PROCESS operations the samples since the last RESET are all. -/
theorem registerHoldsLatestSamples : Obligations.RegisterHoldsLatestSamples := by
  intro s i xs hi _ hsr
  obtain ⟨t, ht, hti⟩ := runInstrs_latest (fun _ => isConstruct_of_mem_feed (xs := xs))
    (hi.trans (congrArg some (Instance.eq_writeSr_latest_nil hsr)))
  rw [samplesSinceReset_feed, List.nil_append] at hti
  exact ⟨t, latest i.N xs, ht, hti, latest_length _ _, fun _ => latest_getElem?_of_lt, fun _ => latest_getElem?_of_ge⟩

end Sys2Proof.Machine
end

section
/-! PROOFS. The encoding (`spec/30_encoding.md`): the opcode map, the bits of a construction record, the numbering of
`spec/opcode_table.json`, and the response to a command (R64, R66, R69). -/

namespace Sys2Proof

/-! ## Command words (R62, R69) -/

/-- The opcode map of R69, by the fields of a command word. -/
def operationOf (op : BitVec 4) (arg : Word) : Instr :=
  if op = 0 then .nop else if op = 1 then .process arg else if op = 2 then .rdtap arg.toNat
  else if op = 3 then .rdgain else if op = 4 then .rdsr arg.toNat else if op = 5 then .rdcfg arg.toNat
  else if op = 6 ∨ op = 7 then .illegal67 op else .illegal8F op

/-- The decoder goes by the number of the code, the map by the code. -/
theorem decodeCommand_eq (w : CommandWord) : decodeCommand w = operationOf (opField w) (argField w) := by
  simp only [decodeCommand, operationOf, ← BitVec.toNat_inj]
  split
  case h_9 h0 h1 h2 h3 h4 h5 h6 h7 =>
    exact .symm <| (if_neg h0).trans <| (if_neg h1).trans <| (if_neg h2).trans <| (if_neg h3).trans <|
      (if_neg h4).trans <| (if_neg h5).trans <| if_neg (not_or.mpr ⟨h6, h7⟩)
  all_goals next h => simp [h]

theorem decodeCommand_commandWord (op : BitVec 4) (arg : Word) :
    decodeCommand (commandWord op arg) = operationOf op arg := by
  rw [decodeCommand_eq, opField_commandWord, argField_commandWord]

/-- NOP and RDGAIN ignore `ARG` (R65(c)). -/
theorem operationOf_ignores_arg {op : BitVec 4} (h : op = 0 ∨ op = 3) (arg arg' : Word) :
    operationOf op arg = operationOf op arg' := by
  obtain rfl | rfl := h
  · rfl
  · rfl

/-- Settles O2: the operation is a function of the two fields, and for codes 0 and 3 of the first alone. -/
theorem commandDecodingFollowsOpcodeMap : Obligations.CommandDecodingFollowsOpcodeMap := by
  refine ⟨fun op arg => congrArg Except.ok (decodeCommand_commandWord op arg), fun w w' hop hignored => ?_⟩
  refine congrArg Except.ok ?_
  calc decodeCommand w = operationOf (opField w) (argField w) := decodeCommand_eq w
    _ = operationOf (opField w) (argField w') := operationOf_ignores_arg hignored _ _
    _ = operationOf (opField w') (argField w') := congrArg (operationOf · _) hop
    _ = decodeCommand w' := (decodeCommand_eq w').symm

/-! ## Construction records (R66) -/

theorem toNat_append_eq {m n : Nat} (x : BitVec m) (y : BitVec n) :
    (x ++ y).toNat = x.toNat * 2 ^ n + y.toNat := by
  rw [BitVec.toNat_append, ← Nat.shiftLeft_add_eq_or_of_lt y.isLt, Nat.shiftLeft_eq]

/-- The record word as a number: the fields at bits 232, 224, 192, 128, 64 and 0. -/
theorem toNat_recordWord (r : Record) :
    (recordWord r).toNat = r.normalize.toNat * 2 ^ 232 + r.kind.toNat * 2 ^ 224 + r.numTaps.toNat * 2 ^ 192 +
      r.fs.toNat * 2 ^ 128 + r.f0.toNat * 2 ^ 64 + r.f1.toNat := by
  simp only [recordWord, toNat_append_eq]
  omega

/-- A field is read as the digit that stands at its bits. -/
theorem toNat_extractLsb'_eq {n : Nat} (w : BitVec n) (start len : Nat) :
    (w.extractLsb' start len).toNat = w.toNat / 2 ^ start % 2 ^ len := by
  rw [BitVec.extractLsb'_toNat, Nat.shiftRight_eq_div_pow]

theorem recordFields_recordWord (r : Record) : recordFields (recordWord r) = r := by
  have hword := toNat_recordWord r
  obtain ⟨normalize, kind, numTaps, fs, f0, f1⟩ := r
  simp only [recordFields, Record.mk.injEq, ← BitVec.toNat_inj, toNat_extractLsb'_eq, hword]
  omega

theorem recordWord_recordFields (w : RecordWord) : recordWord (recordFields w) = w := by
  apply BitVec.eq_of_toNat_eq
  simp only [toNat_recordWord, recordFields, toNat_extractLsb'_eq]
  omega

/-- Settles O4: both directions are arithmetic on `toNat_recordWord`. -/
theorem recordFieldsStandAtTheirBits : Obligations.RecordFieldsStandAtTheirBits :=
  ⟨fun r => ⟨congrArg (Except.ok ∘ Instr.construct) (recordFields_recordWord r), toNat_recordWord r⟩,
    recordWord_recordFields⟩

/-! ## The numbering of the opcode table -/

theorem decodeTableWord_command {n : Nat} (op : BitVec 4) (arg : Word)
    (hn : n = op.toNat * 2 ^ 64 + arg.toNat) : decodeTableWord 72 n = some (operationOf op arg) := by
  have hword : n = (commandWord op arg).toNat := hn.trans (toNat_append_eq op arg).symm
  have hcarrier : carrierOf 72 (commandWord op arg).toNat = .ok (.command (commandWord op arg)) := by
    simp [carrierOf, (commandWord op arg).isLt]
  simp only [hword, decodeTableWord, hcarrier, decode, decodeCommand_commandWord]

theorem decodeTableWord_record {n : Nat} (r : Record) (hn : n = (recordWord r).toNat) :
    decodeTableWord 240 n = some (.construct r) := by
  have hcarrier : carrierOf 240 (recordWord r).toNat = .ok (.record (recordWord r)) := by
    simp [carrierOf, (recordWord r).isLt]
  simp only [hn, decodeTableWord, hcarrier, decode, recordFields_recordWord]

/-- Settles O5: each number is split into the fields that it stands for. -/
theorem specWordsDecode : Obligations.SpecWordsDecode := by
  refine ⟨?_, ?_, ?_, ?_, ?_, ?_, ?_, ?_, ?_, ?_⟩
  · exact decodeTableWord_command 1 0x3FF0000000000000 (by decide)
  · exact decodeTableWord_command 0 0xDEADBEEF00000001 (by decide)
  · exact decodeTableWord_command 2 0x4000000000000000 (by decide)
  · exact decodeTableWord_command 3 0x123456789ABCDEF0 (by decide)
  · exact decodeTableWord_command 4 2 (by decide)
  · exact decodeTableWord_command 5 7 (by decide)
  · exact decodeTableWord_command 7 0x3FF0000000000000 (by decide)
  · exact decodeTableWord_command 15 0xFFFFFFFFFFFFFFFF (by decide)
  · rfl
  · exact decodeTableWord_record _ (by decide)

end Sys2Proof

namespace Sys2Proof.Machine

/-! ## The response to a command (R61, R64) -/

theorem statusCode_ne_three (st : Status) : statusCode st ≠ 3#2 := by cases st <;> decide

theorem statusCode_eq_zero_iff (st : Status) : statusCode st = 0#2 ↔ st = .ok := by cases st <;> decide

/-- The commands that are never answered with an error (R115, R134, R140). -/
def alwaysOk : Instr → Bool
  | .process _ => true
  | .rdgain => true
  | .nop => true
  | _ => false

theorem alwaysOk_iff (op : Instr) : alwaysOk op = true ↔ isProcess op = true ∨ op = .rdgain ∨ op = .nop := by
  constructor
  · intro h
    cases op with
    | process x => exact .inl rfl
    | rdgain => exact .inr (.inl rfl)
    | nop => exact .inr (.inr rfl)
    | _ => cases h
  · rintro (h | rfl | rfl)
    · cases op with
      | process x => rfl
      | _ => cases h
    · rfl
    · rfl

/-- `op` goes from `s` to some `u` without an output and responds there; with an error only where `u` is `s`, and only if
`op` is a command that has errors (R61, R64). -/
def RespondsOnce (op : Instr) (s : State) : Prop :=
  ∃ u st d, exec op s = .next (u.respond st d) ∧ u.outputs = s.outputs ∧ (st ≠ .ok → d = 0 ∧ u = s) ∧
    (alwaysOk op = true → st = .ok)

section
variable {op : Instr} {s : State}

theorem RespondsOnce.of_ok {u : State} {d : Word} (h : exec op s = .next (u.respond .ok d))
    (hout : u.outputs = s.outputs) : RespondsOnce op s :=
  ⟨u, .ok, d, h, hout, fun hne => absurd rfl hne, fun _ => rfl⟩

theorem RespondsOnce.of_illegalOp (h : exec op s = .next s.illegalOp) (hop : alwaysOk op = false) : RespondsOnce op s :=
  ⟨s, .illegalOp, 0, h, rfl, fun _ => ⟨rfl, rfl⟩, fun hok => nomatch hop.symm.trans hok⟩

theorem RespondsOnce.of_answerRead {o : Option Word} (h : exec op s = .next (s.answerRead o))
    (hop : alwaysOk op = false) : RespondsOnce op s := by
  obtain ⟨d, -, he⟩ | ⟨-, he⟩ := s.answerRead_cases o
  · exact .of_ok (h.trans (congrArg _ he)) rfl
  · exact ⟨s, .badIndex, 0, h.trans (congrArg _ he), rfl, fun _ => ⟨rfl, rfl⟩,
      fun hok => nomatch hop.symm.trans hok⟩

/-- Every command responds once where there is a filter (R61): RESET and CONSTRUCT are no commands. -/
theorem exec_respondsOnce {i : Instance} (hi : s.inst = some i) (hc : isConstruct op = false) (hr : op ≠ .reset) :
    RespondsOnce op s := by
  cases op with
  | construct r => cases hc
  | reset => exact absurd rfl hr
  | process x => exact .of_ok (onInstance_some s i _ hi) rfl
  | nop => exact .of_ok (onInstance_some s i _ hi) rfl
  | rdgain => exact .of_ok (onInstance_some s i _ hi) rfl
  | rdtap idx => exact .of_answerRead (onInstance_some s i _ hi) rfl
  | rdsr idx => exact .of_answerRead (onInstance_some s i _ hi) rfl
  | rdcfg idx => exact .of_answerRead (onInstance_some s i _ hi) rfl
  | illegal67 c => exact .of_illegalOp (onInstance_some s i _ hi) rfl
  | illegal8F c => exact .of_illegalOp (onInstance_some s i _ hi) rfl

end

/-- Settles O39: the response is the one of `exec_respondsOnce`, and its fields are read off the response word. -/
theorem everyCommandGetsOneResponse : Obligations.EveryCommandGetsOneResponse := by
  refine ⟨fun data => ⟨rfl, rfl, rfl, fun st => ⟨?_, dataField_responseWord st data⟩⟩, fun op s i hi hc hr => ?_⟩
  · exact (statusField_responseWord st data).trans (by cases st <;> rfl)
  · obtain ⟨u, st, d, hexec, hout, herr, hok⟩ := exec_respondsOnce hi hc hr
    have hstatus : (responseWord st d).extractLsb' 64 2 = statusCode st := statusField_responseWord st d
    have hdata : (responseWord st d).extractLsb' 0 64 = d := dataField_responseWord st d
    refine ⟨u.respond st d, responseWord st d, hexec, ?_, ?_, ?_, ?_⟩
    · rw [State.respond_outputs, hout]
    · rw [hstatus]
      exact statusCode_ne_three st
    · rw [hstatus, hdata, Ne, statusCode_eq_zero_iff]
      intro hne
      obtain ⟨rfl, rfl⟩ := herr hne
      exact ⟨rfl, rfl⟩
    · rw [hstatus, statusCode_eq_zero_iff, ← alwaysOk_iff]
      exact hok

end Sys2Proof.Machine
end

section
/-! PROOFS. Validation reports the first violated constraint, and what CONSTRUCT makes of a record
(`spec/40_design.md` R80 to R89, R97 to R99; `spec/60_exceptions.md` R150 to R155). -/

namespace Sys2Proof.Machine

/-! ## Validation (R152) -/

theorem constraintCode_injective : Function.Injective constraintCode := by
  intro c c' h
  cases c <;> cases c' <;> cases h <;> rfl

section
variable {F : Type} {num : Num F} {kind : Nat} {n : Int} {fs f0 f1 : F}

/-- The constraints with a code below `k` hold. -/
def SatisfiedBelow (num : Num F) (kind : Nat) (n : Int) (fs f0 f1 : F) (k : Nat) : Prop :=
  ∀ c, constraintCode c < k → Satisfied num kind n fs f0 f1 c

theorem satisfiedBelow_one : SatisfiedBelow num kind n fs f0 f1 1 := by
  intro c hc
  cases c <;> exact absurd hc (by decide)

theorem SatisfiedBelow.next {c : Constraint} (h : SatisfiedBelow num kind n fs f0 f1 (constraintCode c))
    (hc : Satisfied num kind n fs f0 f1 c) : SatisfiedBelow num kind n fs f0 f1 (constraintCode c + 1) := by
  intro c' hc'
  rcases Nat.lt_succ_iff_lt_or_eq.mp hc' with hlt | heq
  · exact h c' hlt
  · rwa [constraintCode_injective heq]

theorem SatisfiedBelow.all (h : SatisfiedBelow num kind n fs f0 f1 9) (c : Constraint) :
    Satisfied num kind n fs f0 f1 c :=
  h c (by cases c <;> decide)

theorem satisfied_kindRecognised_iff :
    Satisfied num kind n fs f0 f1 .kindRecognised ↔ ∃ k, kindOfNumber kind = some k := by
  simp only [Satisfied, kindOfNumber]
  split <;> simp_all

/-- The answer of validation is the first violated constraint, or the recognised kind when none is violated (R152). -/
def Reports (num : Num F) (kind : Nat) (n : Int) (fs f0 f1 : F) : Except Constraint FilterKind → Prop
  | .error c => FirstViolated num kind n fs f0 f1 c
  | .ok k => kindOfNumber kind = some k ∧ ∀ c, Satisfied num kind n fs f0 f1 c

/-- One check, after those of the constraints with a smaller code. -/
theorem SatisfiedBelow.check {c : Constraint} {p : Prop} [Decidable p] {e : Except Constraint FilterKind}
    (h : SatisfiedBelow num kind n fs f0 f1 (constraintCode c)) (hp : p ↔ ¬Satisfied num kind n fs f0 f1 c)
    (he : SatisfiedBelow num kind n fs f0 f1 (constraintCode c + 1) → Reports num kind n fs f0 f1 e) :
    Reports num kind n fs f0 f1 (if p then .error c else e) := by
  by_cases hc : p
  · rw [if_pos hc]
    exact ⟨hp.mp hc, h⟩
  · rw [if_neg hc]
    exact he (h.next (not_not.mp (hp.not.mp hc)))

theorem reports_validate (num : Num F) (kind : Nat) (n : Int) (fs f0 f1 : F) :
    Reports num kind n fs f0 f1 (validate num kind n fs f0 f1) := by
  simp only [validate]
  refine satisfiedBelow_one.check (c := .fsPositive) (by simp [Satisfied]) fun b2 => ?_
  refine b2.check (c := .bandOrdered) (by simp [Satisfied]) fun b3 => ?_
  refine b3.check (c := .f0Positive) (by simp [Satisfied]) fun b4 => ?_
  refine b4.check (c := .f0BelowNyquist) (by simp [Satisfied]) fun b5 => ?_
  refine b5.check (c := .f1Positive) (by simp [Satisfied]) fun b6 => ?_
  refine b6.check (c := .f1BelowNyquist) (by simp [Satisfied]) fun b7 => ?_
  refine b7.check (c := .numTapsInRange) Iff.rfl fun b8 => ?_
  cases hk : kindOfNumber kind with
  | none => exact ⟨by simp [satisfied_kindRecognised_iff, hk], b8⟩
  | some k => exact ⟨hk, (b8.next (c := .kindRecognised) (satisfied_kindRecognised_iff.mpr ⟨k, hk⟩)).all⟩

theorem firstViolated_unique {c c' : Constraint} (h : FirstViolated num kind n fs f0 f1 c)
    (h' : FirstViolated num kind n fs f0 f1 c') : c = c' := by
  obtain ⟨hc, hbelow⟩ := h
  obtain ⟨hc', hbelow'⟩ := h'
  rcases Nat.lt_trichotomy (constraintCode c) (constraintCode c') with hlt | heq | hlt
  · exact absurd (hbelow' c hlt) hc
  · exact constraintCode_injective heq
  · exact absurd (hbelow c' hlt) hc'

theorem firstViolated_of_validate {c : Constraint} (h : validate num kind n fs f0 f1 = .error c) :
    FirstViolated num kind n fs f0 f1 c := by
  have hrep := reports_validate num kind n fs f0 f1
  rwa [h] at hrep

theorem satisfied_of_validate {k : FilterKind} (h : validate num kind n fs f0 f1 = .ok k) (c : Constraint) :
    Satisfied num kind n fs f0 f1 c := by
  have hrep := reports_validate num kind n fs f0 f1
  rw [h] at hrep
  exact hrep.2 c

theorem validate_of_firstViolated {c : Constraint} (h : FirstViolated num kind n fs f0 f1 c) :
    validate num kind n fs f0 f1 = .error c := by
  cases hv : validate num kind n fs f0 f1 with
  | error c' => rw [firstViolated_unique h (firstViolated_of_validate hv)]
  | ok k => exact absurd (satisfied_of_validate hv c) h.1

theorem validate_of_satisfied (h : ∀ c, Satisfied num kind n fs f0 f1 c) :
    ∃ k, validate num kind n fs f0 f1 = .ok k := by
  cases hv : validate num kind n fs f0 f1 with
  | error c => exact absurd (h c) (firstViolated_of_validate hv).1
  | ok k => exact ⟨k, rfl⟩

end

/-! ## Validation under B64 -/

theorem B64.flt_trans {a b c : Word} (h : flt a b = true) (h' : flt b c = true) : flt a c = true := by
  simp only [flt, Bool.and_eq_true, decide_eq_true_eq] at *
  obtain ⟨⟨ha, -⟩, hab⟩ := h
  obtain ⟨⟨-, hc⟩, hbc⟩ := h'
  exact ⟨⟨ha, hc⟩, hab.trans hbc⟩

theorem B64.isNaN_of_flt {a b : Word} (h : flt a b = true) : isNaN a = false ∧ isNaN b = false := by
  simp only [flt, Bool.and_eq_true, Bool.not_eq_true'] at h
  exact h.1

/-- Settles O11: the constraints are met up to number 4 and number 5 is not; under B64 number 5 follows from numbers 2 and
3, because the order is transitive. -/
theorem codeFiveIsNeverReported : Obligations.CodeFiveIsNeverReported := by
  refine ⟨fun F num kind n fs f0 f1 hfs hband hf0 hny hne hf1 => validate_of_firstViolated ⟨?_, fun c hc => ?_⟩,
    fun q kind n fs f0 f1 h => ?_⟩
  · simp [Satisfied, hne, hf1]
  · cases c with
    | fsPositive => exact hfs
    | bandOrdered => exact fun _ => hband
    | f0Positive => exact hf0
    | f0BelowNyquist => exact hny
    | _ => exact absurd hc (by decide)
  · obtain ⟨hviolated, hbelow⟩ := firstViolated_of_validate h
    have hband : Satisfied (b64 q) kind n fs f0 f1 .bandOrdered := hbelow _ (by decide)
    have hf0 : B64.flt B64.zero f0 = true := hbelow .f0Positive (by decide)
    exact hviolated fun hne => B64.flt_trans hf0 (hband hne)

/-- Half of a rate that is no NaN is no NaN, so no draw shows in it. -/
theorem B64.fdiv_two_draw (q q' : Word) {a : Word} (ha : isNaN a = false) : fdiv q a two = fdiv q' a two := by
  have hnan : isNaN two = false := by decide
  have hinf : isInf two = false := by decide
  have hzero : isZero two = false := by decide
  simp [fdiv, ha, hnan, hinf, hzero]

section
variable {q : Word} (q' : Word) {kind : Nat} {n : Int} {fs f0 f1 : Word} {c : Constraint}

/-- Under B64 the constraints do not depend on the draw, once the rate is positive. -/
theorem satisfied_draw (hfs : B64.flt B64.zero fs = true) :
    Satisfied (b64 q) kind n fs f0 f1 c ↔ Satisfied (b64 q') kind n fs f0 f1 c := by
  have hhalf := B64.fdiv_two_draw q q' (B64.isNaN_of_flt hfs).2
  cases c with
  | f0BelowNyquist => simp [Satisfied, hhalf]
  | f1BelowNyquist => simp [Satisfied, hhalf]
  | _ => exact Iff.rfl

theorem firstViolated_draw (h : FirstViolated (b64 q) kind n fs f0 f1 c) :
    FirstViolated (b64 q') kind n fs f0 f1 c := by
  obtain ⟨hc, hbelow⟩ := h
  rcases eq_or_ne c .fsPositive with rfl | hne
  · exact ⟨hc, satisfiedBelow_one⟩
  · have hpos : constraintCode .fsPositive < constraintCode c := by
      cases c with
      | fsPositive => exact absurd rfl hne
      | _ => decide
    have hfs : B64.flt B64.zero fs = true := hbelow .fsPositive hpos
    exact ⟨fun h => hc ((satisfied_draw q' hfs).mpr h), fun c' hlt => (satisfied_draw q' hfs).mp (hbelow c' hlt)⟩

end

/-! ## CONSTRUCT -/

theorem execConstruct_of_error {r : Record} {s : State} {c : Constraint} (hs : s.inst = none)
    (h : validateRecord r s.draws = .error c) : execConstruct r s = .next (s.raiseInvalidParameter c) := by
  simp [execConstruct, hs, h]

theorem execConstruct_of_ok {r : Record} {s : State} {kind : FilterKind} (hs : s.inst = none)
    (h : validateRecord r s.draws = .ok kind) : execConstruct r s =
      .next ((s.withInst (buildInstance r kind s.draws)).advanceDraws (constructDraws r.numTaps.toInt.toNat)) := by
  simp [execConstruct, hs, h]

/-- Settles O12: what validation answers does not depend on the draw, and `buildInstance` is a design. -/
theorem constructCompletes : Obligations.ConstructCompletes := by
  refine ⟨⟨rfl, rfl, rfl, rfl, rfl, rfl, rfl, rfl⟩, fun q r s hs => ⟨fun hall => ?_, fun c hc => ?_⟩⟩
  · have hfs : B64.flt B64.zero r.fs = true := hall .fsPositive
    obtain ⟨kind, hok⟩ : ∃ kind, validateRecord r s.draws = .ok kind :=
      validate_of_satisfied fun c => (satisfied_draw _ hfs).mp (hall c)
    exact ⟨buildInstance r kind s.draws, _, execConstruct_of_ok hs hok, rfl, rfl, rfl, rfl, rfl, rfl,
      buildInstance_designed hok, rfl⟩
  · exact execConstruct_of_error hs (validate_of_firstViolated (firstViolated_draw _ hc))

theorem execConstruct_next_some {r : Record} {s t : State} {i : Instance} (h : execConstruct r s = .next t)
    (hi : t.inst = some i) : ∃ kind, validateRecord r s.draws = .ok kind ∧ i = buildInstance r kind s.draws := by
  obtain ⟨hs, ⟨c, -, rfl⟩ | ⟨kind, hv, rfl⟩⟩ := execConstruct_next r s t h
  · rw [State.raiseInvalidParameter_inst, hs] at hi
    cases hi
  · exact ⟨kind, hv, (Option.some.inj hi).symm⟩

theorem getElem?_tapVector {F : Type} (numAt : Nat → Num F) (kind : FilterKind) {n N : Nat} (lambda phi : F)
    (h : n < N) : (tapVector numAt kind N lambda phi)[n]? = some (tap (numAt n) kind n N lambda phi) := by
  simp [tapVector, h]

/-- Settles O59: the fields of `buildInstance`, each with its own draw. -/
theorem constructFillsTheConstants : Obligations.ConstructFillsTheConstants := by
  intro r s t i h hi
  obtain ⟨kind, hv, rfl⟩ := execConstruct_next_some h hi
  obtain ⟨-, hkind⟩ := validate_ok hv
  have hquiet (d : Nat) := B64.isQuietNaN_quietNaN (Config.freeNaN d)
  refine ⟨rfl, tapVector_length _ _ _ _ _, ⟨_, hquiet s.draws, rfl⟩, ⟨_, hquiet (s.draws + 1), rfl⟩,
    fun n hn => ⟨_, hquiet (s.draws + 2 + n), ?_⟩, le_two_of_kindOfNumber hkind,
    ⟨_, hquiet (s.draws + 2 + r.numTaps.toInt.toNat), rfl⟩⟩
  have htap := getElem?_tapVector (fun n => b64Draw (s.draws + 2 + n)) kind
    (buildInstance r kind s.draws).lambda (buildInstance r kind s.draws).phi hn
  refine ⟨fun h => ?_, fun h => ?_, fun h => ?_⟩ <;>
  · rw [kindOperand, h] at hkind
    cases hkind
    exact htap

end Sys2Proof.Machine
end

section
/-! PROOFS. The taps at the centre and away from it, over any numerics record, and the design under REAL
(`spec/40_design.md` R91 to R98, R100, R103). -/

namespace Sys2Proof.Machine

/-! ## The two branches of the kernels (R93 to R96) -/

section
variable {F : Type} {num : Num F} {n N : Nat} (lambda phi : F)

theorem tap_of_zero_offset (h : num.feq (mm num n N) num.zero = true) :
    tap num .lowPass n N lambda phi = num.fdiv lambda num.pi ∧
    tap num .highPass n N lambda phi = num.fsub num.one (num.fdiv lambda num.pi) ∧
    tap num .bandPass n N lambda phi = num.fdiv (num.fsub phi lambda) num.pi := by
  simp [tap, kernelLP, kernelHP, kernelBP, h]

theorem tap_of_offset {m : F} (hm : mm num n N = m) (h : ¬num.feq (mm num n N) num.zero = true) :
    tap num .lowPass n N lambda phi = num.fdiv (num.fsin (num.fmul m lambda)) (num.fmul m num.pi) ∧
    tap num .highPass n N lambda phi =
      num.fneg (num.fdiv (num.fsin (num.fmul m lambda)) (num.fmul m num.pi)) ∧
    tap num .bandPass n N lambda phi =
      num.fdiv (num.fsub (num.fsin (num.fmul m phi)) (num.fsin (num.fmul m lambda))) (num.fmul m num.pi) := by
  rw [hm] at h
  simp [tap, kernelLP, kernelHP, kernelBP, hm, h]

end

/-! ## Offsets under REAL (R91) -/

theorem mm_real (n N : Nat) : mm real n N = n - (N - 1) / 2 := by simp [mm]

theorem offset_eq_zero_iff {K : Type} [Field K] [CharZero K] (n N : Nat) :
    (n : K) - ((N : K) - 1) / 2 = 0 ↔ 2 * n + 1 = N := by
  have h : (n : K) - ((N : K) - 1) / 2 = ((2 * n + 1 : Nat) - (N : K)) / 2 := by push_cast; ring
  rw [h, div_eq_zero_iff, sub_eq_zero, Nat.cast_inj]
  simp

theorem offset_mirror {K : Type} [Field K] [CharZero K] {n N : Nat} (h : n < N) :
    ((N - 1 - n : Nat) : K) - ((N : K) - 1) / 2 = -((n : K) - ((N : K) - 1) / 2) := by
  rw [Nat.cast_sub (by omega), Nat.cast_sub (by omega)]
  push_cast; ring

theorem feq_mm_real_iff (n N : Nat) : real.feq (mm real n N) real.zero = true ↔ 2 * n + 1 = N := by
  rw [real_feq, real_zero, mm_real, offset_eq_zero_iff]

/-! ## Symmetry and gains under REAL -/

/-- Settles O17: away from the centre the mirror tap has the negated offset, and sine and denominator are odd in it. -/
theorem tapsAreSymmetricUnderReal : Obligations.TapsAreSymmetricUnderReal := by
  intro kind n N lambda phi hn
  by_cases hc : 2 * n + 1 = N
  · rw [show N - 1 - n = n by omega]
  have hmirror : mm real (N - 1 - n) N = -mm real n N := by rw [mm_real, mm_real, offset_mirror hn]
  obtain ⟨hL, hH, hB⟩ := tap_of_offset lambda phi rfl ((feq_mm_real_iff n N).not.mpr hc)
  obtain ⟨hL', hH', hB'⟩ := tap_of_offset lambda phi hmirror ((feq_mm_real_iff (N - 1 - n) N).not.mpr (by omega))
  cases kind with
  | lowPass => rw [hL, hL']; simp [neg_div_neg_eq]
  | highPass => rw [hH, hH']; simp [neg_div_neg_eq]
  | bandPass =>
    rw [hB, hB']
    simp only [real_fdiv, real_fsub, real_fsin, real_fmul, real_pi, neg_mul, Real.sin_neg]
    rw [← neg_div_neg_eq]
    ring

/-- The HighPass tap is the delayed impulse less the LowPass tap. -/
theorem tap_highPass_real (n N : Nat) (lambda phi : ℝ) : tap real .highPass n N lambda phi =
    (if 2 * n + 1 = N then 1 else 0) - tap real .lowPass n N lambda phi := by
  by_cases hc : 2 * n + 1 = N
  · obtain ⟨hL, hH, -⟩ := tap_of_zero_offset lambda phi ((feq_mm_real_iff n N).mpr hc)
    rw [hL, hH, if_pos hc]; rfl
  · obtain ⟨hL, hH, -⟩ := tap_of_offset lambda phi rfl ((feq_mm_real_iff n N).not.mpr hc)
    rw [hL, hH, if_neg hc, zero_sub]; rfl

/-- The BandPass tap is the difference of two LowPass taps. -/
theorem tap_bandPass_real (n N : Nat) (lambda phi : ℝ) : tap real .bandPass n N lambda phi =
    tap real .lowPass n N phi phi - tap real .lowPass n N lambda lambda := by
  by_cases hc : 2 * n + 1 = N
  · have h := (feq_mm_real_iff n N).mpr hc
    obtain ⟨-, -, hB⟩ := tap_of_zero_offset lambda phi h
    rw [hB, (tap_of_zero_offset phi phi h).1, (tap_of_zero_offset lambda lambda h).1]
    exact sub_div _ _ _
  · have h := (feq_mm_real_iff n N).not.mpr hc
    obtain ⟨-, -, hB⟩ := tap_of_offset lambda phi rfl h
    rw [hB, (tap_of_offset phi phi rfl h).1, (tap_of_offset lambda lambda rfl h).1]
    exact sub_div _ _ _

theorem gainSum_real (kind : FilterKind) (N : Nat) (lambda phi : ℝ) :
    gainSum real (tapVector (fun _ => real) kind N lambda phi) =
      ∑ n ∈ Finset.range N, tap real kind n N lambda phi := by
  have hfold (f : Nat → ℝ) (k : Nat) : ((List.range k).map f).foldl real.fadd real.zero = ∑ n ∈ Finset.range k, f n := by
    induction k with
    | zero => rfl
    | succ k ih => rw [List.range_succ, List.map_append, List.foldl_append, ih, Finset.sum_range_succ]; rfl
  exact hfold _ N

/-- The number of centre taps. -/
theorem sum_centre (N : Nat) : (∑ n ∈ Finset.range N, if 2 * n + 1 = N then (1 : ℝ) else 0) = (N % 2 : Nat) := by
  rcases Nat.even_or_odd' N with ⟨c, rfl | rfl⟩
  · rw [Finset.sum_eq_zero fun n _ => if_neg (by omega)]
    simp
  · rw [Finset.sum_eq_single c (fun n _ hn => if_neg (by omega)) (fun hc => absurd (by simp; omega) hc), if_pos rfl,
      Nat.mul_add_mod_self_left]
    simp

theorem gainSum_highPass_real (N : Nat) (lambda phi : ℝ) :
    gainSum real (tapVector (fun _ => real) .highPass N lambda phi) =
      (N % 2 : Nat) - gainSum real (tapVector (fun _ => real) .lowPass N lambda phi) := by
  rw [gainSum_real, gainSum_real, ← sum_centre, ← Finset.sum_sub_distrib]
  exact Finset.sum_congr rfl fun n _ => tap_highPass_real n N lambda phi

/-- Settles O18: the gains are sums of taps, and the taps are so related one by one. -/
theorem gainsUnderReal : Obligations.GainsUnderReal := by
  intro N lambda phi
  refine ⟨fun hodd => ?_, fun heven => ?_, ?_⟩
  · rw [gainSum_highPass_real, hodd, Nat.cast_one]
  · rw [gainSum_highPass_real, heven, Nat.cast_zero, zero_sub]
  · rw [gainSum_real, gainSum_real, gainSum_real, ← Finset.sum_sub_distrib]
    exact Finset.sum_congr rfl fun n _ => tap_bandPass_real n N lambda phi

end Sys2Proof.Machine
end

section
/-! PROOFS. The offsets and the centre taps under B64 (`spec/40_design.md` R91 to R96, R101). -/

namespace Sys2Proof.Machine.B64

/-! ## Exact results (R12) -/

/-- A finite value is below the bound from which magnitudes round to an infinity. -/
theorem abs_toRat_lt_overflowBound {w : Word} (h : isFinite w = true) : |toRat w| < overflowBound := by
  have hU := unitsInOne_cast_pos
  have hmag : mag w ≤ 2045 * 2 ^ 52 + (2 ^ 53 - 1) := by
    rw [isFinite_iff, infMag_eq] at h; omega
  have hunits : fieldUnits (mag w) ≤ (2 ^ 53 - 1) * 2 ^ 2045 := by
    rw [← fieldUnits_scaled 2045 (2 ^ 53 - 1) (by decide) (by decide)]
    exact fieldUnits_strictMono.monotone hmag
  rw [abs_toRat, div_lt_iff₀ hU, overflowBound_mul_unitsInOne]
  rewrite [show 2045 = 2044 + 1 by rfl] at hunits
  have hpos : 0 < 2 ^ 2044 := by positivity
  generalize 2044 = e at *
  rw [pow_succ] at hunits
  have hlt : fieldUnits (mag w) < (2 ^ 54 - 1) * 2 ^ e := by omega
  rw [show (2 ^ 54 - 1 : ℚ) = (2 ^ 54 - 1 : Nat) by norm_num]
  exact_mod_cast hlt

/-- A word that is no zero is determined by its value. -/
theorem eq_of_toRat_eq {a b : Word} (hb : isZero b = false) (h : toRat a = toRat b) : a = b := by
  rw [toRat_eq_toRat_iff, orderKey, orderKey] at h
  simp only [isZero, beq_eq_false_iff_ne] at hb
  have hmag : mag a = mag b := by split_ifs at h <;> omega
  have hsign : sign a = sign b := by
    cases ha : sign a <;> cases hb' : sign b <;> simp_all
  rw [← pack_sign_mag a, hmag, hsign, pack_sign_mag]

section
variable (q : Word) {a b c : Word} (ha : isFinite a = true) (hb : isFinite b = true) (hc : isFinite c = true)
include ha hb hc

/-- A sum that the format has is exact. -/
theorem toRat_fadd_of_eq (h : toRat a + toRat b = toRat c) :
    isFinite (fadd q a b) = true ∧ toRat (fadd q a b) = toRat c := by
  by_cases h0 : toRat a + toRat b = 0
  · have hunits : units a + units b = 0 := by
      rw [toRat, toRat, ← add_div, div_eq_zero_iff] at h0
      exact_mod_cast h0.resolve_right unitsInOne_cast_pos.ne'
    rw [fadd_of_units_add_eq_zero q ha hb hunits, ← h, h0, toRat_eq_zero_iff]
    exact ⟨isFinite_of_isZero (isZero_pack_zero _), isZero_pack_zero _⟩
  · have hround := roundsTo_fadd q ha hb h0
    rw [h] at hround
    exact hround.exact (abs_toRat_lt_overflowBound hc) hc rfl

theorem fadd_eq_of_toRat_eq (hz : isZero c = false) (h : toRat a + toRat b = toRat c) : fadd q a b = c :=
  eq_of_toRat_eq hz (toRat_fadd_of_eq q ha hb hc h).2

/-- A quotient that the format has is exact. -/
theorem toRat_fdiv_of_eq (hz : isZero b = false) (h : toRat a / toRat b = toRat c) :
    isFinite (fdiv q a b) = true ∧ toRat (fdiv q a b) = toRat c := by
  cases ha0 : isZero a with
  | true =>
    have h0 : toRat c = 0 := by rw [← h, (toRat_eq_zero_iff a).mpr ha0, zero_div]
    rw [fdiv_of_isZero_left q ha0 hb hz, h0, toRat_eq_zero_iff]
    exact ⟨isFinite_of_isZero (isZero_pack_zero _), isZero_pack_zero _⟩
  | false =>
    have hround := roundsTo_fdiv q ha hb (by simp [toRat_eq_zero_iff, hz]) (by simp [toRat_eq_zero_iff, ha0])
    rw [h] at hround
    exact hround.exact (abs_toRat_lt_overflowBound hc) hc rfl

end

/-! ## Halves of integers -/

theorem two_pow_53_le_unitsInOne : 2 ^ 53 ≤ unitsInOne :=
  (Nat.pow_le_pow_right (by decide) (by omega)).trans_eq unitsInOne_eq.symm

/-- The format has every half of a natural number below `2 ^ 53`. -/
theorem exists_fieldUnits_half (k : Nat) (hk : k < 2 ^ 53) : ∃ m < infMag, 2 * fieldUnits m = k * unitsInOne := by
  obtain ⟨m, hm, hval⟩ := exists_fieldUnits_eq k hk
  rcases Nat.eq_zero_or_pos k with rfl | hpos
  · exact ⟨0, by decide, by simp⟩
  obtain ⟨e, f, rfl, hf, he, hscaled⟩ := exists_scaled m
  -- one less in the exponent field
  obtain ⟨e, rfl⟩ : ∃ e', e = e' + 1 := by
    refine Nat.exists_eq_succ_of_ne_zero fun h0 => ?_
    have hlarge : 2 ^ 53 ≤ k * unitsInOne := two_pow_53_le_unitsInOne.trans (Nat.le_mul_of_pos_left _ hpos)
    rw [hval, h0, Nat.pow_zero, Nat.mul_one] at hscaled
    omega
  refine ⟨e * 2 ^ 52 + f, (by omega : e * 2 ^ 52 + f ≤ (e + 1) * 2 ^ 52 + f).trans_lt hm, ?_⟩
  rw [fieldUnits_scaled e f hf.le (by omega), ← hval, hscaled, pow_succ]
  ring

theorem exists_toRat_eq_half (k : Int) (hk : k.natAbs < 2 ^ 53) : ∃ c, isFinite c = true ∧ toRat c = k / 2 := by
  have hU := unitsInOne_cast_pos.ne'
  obtain ⟨m, hm, hval⟩ := exists_fieldUnits_half k.natAbs hk
  refine ⟨pack (decide ((k : ℚ) / 2 < 0)) m, ?_, ?_⟩
  · rwa [isFinite_iff, mag_pack _ _ (hm.trans (by decide))]
  · have habs : (fieldUnits m : ℚ) / unitsInOne = |(k : ℚ) / 2| := by
      have hval' : 2 * (fieldUnits m : ℚ) = |(k : ℚ)| * unitsInOne := by
        rw [← Int.cast_abs, ← Nat.cast_natAbs]; exact_mod_cast hval
      rw [abs_div, abs_two, div_eq_div_iff hU two_ne_zero, ← hval']
      ring
    rw [toRat_pack _ _ hm.le, habs, signed_abs]

/-! ## Offsets (R91) -/

theorem isFinite_two : isFinite two = true := by decide
theorem isZero_two : isZero two = false := by decide
theorem isFinite_pi : isFinite pi = true := by decide
theorem isZero_pi : isZero pi = false := by decide
theorem isZero_zero : isZero zero = true := by decide

theorem ofInt_one : ofInt 1 = one := by decide +kernel
theorem ofInt_two : ofInt 2 = two := by decide +kernel

theorem toRat_one : toRat one = 1 := by
  rw [← ofInt_one, (ofIntIsExact 1 (by decide) (by decide)).2, Int.cast_one]

theorem toRat_two : toRat two = 2 := by
  rw [← ofInt_two, (ofIntIsExact 2 (by decide) (by decide)).2, Int.cast_ofNat]

theorem sign_ofInt_natCast (n : Nat) : sign (ofInt n) = false := by
  rw [ofInt, sign_pack _ _ ((roundMag_le _ _).trans_lt (by decide))]
  simp

theorem units_eq_of_toRat_eq {a b : Word} (h : toRat a = toRat b) : units a = units b := by
  rw [toRat, toRat, div_left_inj' unitsInOne_cast_pos.ne'] at h
  exact_mod_cast h

/-- The difference of two words of one value is positive zero, if the first is not negative. -/
theorem fsub_of_toRat_eq (q : Word) {a b : Word} (ha : isFinite a = true) (hb : isFinite b = true)
    (hs : sign a = false) (h : toRat a = toRat b) : fsub q a b = zero := by
  rw [fsub, fadd_of_units_add_eq_zero q ha (by rwa [isFinite_fneg])
    (by rw [units_fneg, units_eq_of_toRat_eq h, add_neg_cancel]), hs, Bool.false_and]
  rfl

section
variable (q : Word) {n N : Nat} (hN : N ≤ 1000)
include hN

/-- The centre of the register is exact. -/
theorem toRat_centre : isFinite (fdiv q (ofInt ((N : Int) - 1)) two) = true ∧
    toRat (fdiv q (ofInt ((N : Int) - 1)) two) = (N - 1) / 2 := by
  obtain ⟨hfin, hval⟩ := ofIntIsExact (N - 1) (by omega) (by omega)
  obtain ⟨c, hc, hcval⟩ := exists_toRat_eq_half (N - 1) (by omega)
  obtain ⟨hdiv, hdivval⟩ := toRat_fdiv_of_eq q hfin isFinite_two hc isZero_two (by rw [hval, toRat_two, hcval])
  refine ⟨hdiv, hdivval.trans ?_⟩
  rw [hcval]
  push_cast; ring

theorem mm_of_centre (hc : 2 * n + 1 = N) : mm (b64 q) n N = zero := by
  obtain ⟨hfin, hval⟩ := ofIntIsExact n (by omega) (by omega)
  obtain ⟨hcen, hcenval⟩ := toRat_centre q hN
  refine fsub_of_toRat_eq q hfin hcen (sign_ofInt_natCast n) ?_
  rw [b64_ofInt, b64_fdiv, b64_two, hval, hcenval, ← hc]
  push_cast; ring

variable (hn : n < N)
include hn

/-- Every offset is exact. -/
theorem toRat_mm : isFinite (mm (b64 q) n N) = true ∧ toRat (mm (b64 q) n N) = n - (N - 1) / 2 := by
  obtain ⟨hfin, hval⟩ := ofIntIsExact n (by omega) (by omega)
  obtain ⟨hcen, hcenval⟩ := toRat_centre q hN
  obtain ⟨c, hc, hcval⟩ := exists_toRat_eq_half (2 * n - (N - 1)) (by omega)
  have hsum : toRat (ofInt n) + toRat (fneg (fdiv q (ofInt ((N : Int) - 1)) two)) = toRat c := by
    rw [toRat_fneg, hcenval, hval, hcval]
    push_cast; ring
  obtain ⟨hmm, hmmval⟩ := toRat_fadd_of_eq q hfin (by rwa [isFinite_fneg]) hc hsum
  refine ⟨hmm, hmmval.trans ?_⟩
  rw [hcval]
  push_cast; ring

theorem isZero_mm_iff : isZero (mm (b64 q) n N) = true ↔ 2 * n + 1 = N := by
  rw [← toRat_eq_zero_iff, (toRat_mm q hN hn).2, offset_eq_zero_iff]

/-- The offset of the mirror tap is the negated word, away from the centre. -/
theorem mm_mirror (q' : Word) (hc : 2 * n + 1 ≠ N) : mm (b64 q') (N - 1 - n) N = fneg (mm (b64 q) n N) := by
  refine eq_of_toRat_eq ?_ ?_
  · rwa [isZero_fneg, ← Bool.not_eq_true, isZero_mm_iff q hN hn]
  · rw [toRat_fneg, (toRat_mm q hN hn).2, (toRat_mm q' hN (by omega)).2, offset_mirror hn]

theorem feq_mm_zero_iff : feq (mm (b64 q) n N) zero = true ↔ 2 * n + 1 = N := by
  have hnan := isNaN_of_isFinite (toRat_mm q hN hn).1
  rw [feq_iff hnan (by decide), decide_eq_true_eq, ← toRat_eq_toRat_iff, (toRat_eq_zero_iff zero).mpr isZero_zero,
    toRat_eq_zero_iff, isZero_mm_iff q hN hn]

theorem half_le_abs_toRat_mm (hc : 2 * n + 1 ≠ N) : 1 / 2 ≤ |toRat (mm (b64 q) n N)| := by
  have hne : (2 * n + 1 - N : Int) ≠ 0 := by omega
  have hint : (1 : ℚ) ≤ |((2 * n + 1 - N : Int) : ℚ)| := by exact_mod_cast Int.one_le_abs hne
  rw [(toRat_mm q hN hn).2, show (n : ℚ) - (N - 1) / 2 = ((2 * n + 1 - N : Int) : ℚ) / 2 by push_cast; ring, abs_div,
    abs_two]
  linarith

end

/-- Settles O13: the quotient and the difference are halves of integers, which the format has. -/
theorem offsetsAreExact : Obligations.OffsetsAreExact := by
  intro q n N hN hn
  obtain ⟨hfin, hval⟩ := toRat_mm q hN hn
  refine ⟨hfin, hval, ?_, fun h => ?_, mm_of_centre q hN⟩
  · rw [toRat_fneg, hval, (toRat_mm q hN (by omega)).2, offset_mirror hn]
  · rw [← isZero_mm_iff q hN hn, h]; decide

/-! ## The denominators (R96) -/

/-- What rounds a value of magnitude 1 or more is no zero: `ONE` is nearer to it than a zero. -/
theorem RoundsTo.isZero_eq_false {v : ℚ} {r : Word} (h : RoundsTo v r) (hv : 1 ≤ |v|) : isZero r = false := by
  rw [← Bool.not_eq_true]
  intro hz
  rcases lt_or_ge |v| overflowBound with hlt | hge
  · obtain ⟨-, hnear, -⟩ := h.1 hlt
    rw [(toRat_eq_zero_iff r).mpr hz, zero_sub, abs_neg] at hnear
    rcases le_abs.mp hv with hpos | hneg
    · have := hnear one (by decide)
      rw [toRat_one, abs_of_nonneg (by linarith : 0 ≤ v), abs_of_nonpos (by linarith)] at this
      linarith
    · have := hnear (fneg one) (by decide)
      rw [toRat_fneg, toRat_one, abs_of_nonpos (by linarith : v ≤ 0), abs_of_nonneg (by linarith)] at this
      linarith
  · simpa [hz] using isZero_of_isInf (h.2.1 hge)

theorem two_le_toRat_pi : 2 ≤ toRat pi := by
  rw [← toRat_two, ← not_lt, toRat_lt_toRat_iff]
  decide

theorem isZero_fmul_mm_pi (q : Word) {n N : Nat} (hN : N ≤ 1000) (hn : n < N) (hc : 2 * n + 1 ≠ N) :
    isZero (fmul q (mm (b64 q) n N) pi) = false := by
  have hm := half_le_abs_toRat_mm q hN hn hc
  have hpi := two_le_toRat_pi
  have habs : 1 ≤ |toRat (mm (b64 q) n N) * toRat pi| := by
    rw [abs_mul, abs_of_nonneg (by linarith : 0 ≤ toRat pi)]
    nlinarith
  have hne : toRat (mm (b64 q) n N) * toRat pi ≠ 0 := by
    rintro h
    rw [h, abs_zero] at habs
    linarith
  exact (roundsTo_fmul q (toRat_mm q hN hn).1 isFinite_pi hne).isZero_eq_false habs

/-- Settles O14: the offset is a zero at the centre only, and elsewhere the denominator has magnitude `PI / 2` or more. -/
theorem zeroOffsetBranchOnlyAtCentre : Obligations.ZeroOffsetBranchOnlyAtCentre := fun q _ _ hN hn =>
  ⟨feq_mm_zero_iff q hN hn, isZero_fmul_mm_pi q hN hn⟩

/-! ## The centre taps and the formulas (R93 to R96, R101) -/

theorem angle_real_div_pi (f fs : ℝ) : angle real f fs / Real.pi = 2 * f / fs := by
  have := Real.pi_ne_zero
  simp only [angle, real_fdiv, real_fmul, real_pi, real_two]
  field_simp

/-- Settles O15: the branch of the kernels at a zero offset; under REAL the `PI` of the angles cancels. -/
theorem centreTapIsTheLimit : Obligations.CentreTapIsTheLimit := by
  refine ⟨fun q c lambda phi hN => ?_, fun c fs f0 f1 _ => ?_⟩
  · exact tap_of_zero_offset lambda phi ((feq_mm_zero_iff q hN (by omega)).mpr rfl)
  · obtain ⟨hL, hH, hB⟩ := tap_of_zero_offset (angle real f0 fs) (angle real f1 fs)
      ((feq_mm_real_iff c (2 * c + 1)).mpr rfl)
    rw [hL, hH, hB]
    simp only [real_fdiv, real_fsub, real_pi, real_one, sub_div, angle_real_div_pi, mul_sub, and_self]

/-- Settles O58: the two branches of the kernels, each where its condition on the index holds. -/
theorem kernelsAreTheFormulas : Obligations.KernelsAreTheFormulas := by
  refine ⟨fun q n N lambda phi m hN hn hm => ?_, fun n N lambda phi m hn hm => ?_⟩
  · by_cases hc : 2 * n + 1 = N
    · simp only [if_pos hc]
      exact tap_of_zero_offset lambda phi ((feq_mm_zero_iff q hN hn).mpr hc)
    · simp only [if_neg hc]
      exact tap_of_offset lambda phi hm.symm ((feq_mm_zero_iff q hN hn).not.mpr hc)
  · by_cases hc : 2 * n + 1 = N
    · simp only [if_pos hc]
      exact tap_of_zero_offset lambda phi ((feq_mm_real_iff n N).mpr hc)
    · simp only [if_neg hc]
      exact tap_of_offset lambda phi ((mm_real n N).trans hm.symm) ((feq_mm_real_iff n N).not.mpr hc)

end Sys2Proof.Machine.B64
end

section
/-! PROOFS. Taps under B64 that compare equal: mirror images, and a BandPass without an upper edge against the LowPass
(`spec/40_design.md` R100, R104). -/

namespace Sys2Proof.Machine.B64

/-! ## A result that is no NaN shows no draw, and follows the signs of its operands (R12) -/

theorem fneg_pack (s : Bool) {m : Nat} (h : m < 2 ^ 63) : fneg (pack s m) = pack (!s) m := by
  rw [fneg_eq, sign_pack s m h, mag_pack s m h]

theorem fneg_pack_infMag (s : Bool) : fneg (pack s infMag) = pack (!s) infMag := fneg_pack s (by decide)

theorem fneg_pack_zero (s : Bool) : fneg (pack s 0) = pack (!s) 0 := fneg_pack s (by decide)

theorem fneg_pack_roundMag (s : Bool) (n d : Nat) : fneg (pack s (roundMag n d)) = pack (!s) (roundMag n d) :=
  fneg_pack s ((roundMag_le n d).trans_lt (by decide))

theorem unitsMag_fneg (w : Word) : unitsMag (fneg w) = unitsMag w := by rw [unitsMag_eq, unitsMag_eq, mag_fneg]

section
variable {q a b : Word} (hq : isNaN q = true)
include hq

theorem fadd_draw (h : isNaN (fadd q a b) = false) (q' : Word) : fadd q' a b = fadd q a b := by
  unfold fadd at *
  split_ifs at * <;> simp_all

theorem fmul_draw (h : isNaN (fmul q a b) = false) (q' : Word) : fmul q' a b = fmul q a b := by
  unfold fmul at *
  split_ifs at * <;> simp_all

theorem fdiv_draw (h : isNaN (fdiv q a b) = false) (q' : Word) : fdiv q' a b = fdiv q a b := by
  unfold fdiv at *
  split_ifs at * <;> simp_all

/-- The operands of a result that is no NaN are no NaNs. -/
theorem isNaN_operands {f : Word → Word → Word} (hf : ∀ {a b}, isNaN a = true ∨ isNaN b = true → f a b = q)
    (h : isNaN (f a b) = false) : isNaN a = false ∧ isNaN b = false := by
  by_contra hab
  rw [not_and_or, Bool.not_eq_false, Bool.not_eq_false] at hab
  rw [hf hab, hq] at h
  cases h

theorem fmul_fneg_left (h : isNaN (fmul q a b) = false) (q' : Word) : fmul q' (fneg a) b = fneg (fmul q a b) := by
  simp only [fmul, isNaN_fneg, isInf_fneg, isZero_fneg, sign_fneg, unitsMag_fneg] at *
  split_ifs at * <;> simp_all [fneg_pack_infMag, fneg_pack_roundMag]

theorem fdiv_fneg_left (h : isNaN (fdiv q a b) = false) (q' : Word) : fdiv q' (fneg a) b = fneg (fdiv q a b) := by
  simp only [fdiv, isNaN_fneg, isInf_fneg, isZero_fneg, sign_fneg, unitsMag_fneg] at *
  split_ifs at * <;> simp_all [fneg_pack_infMag, fneg_pack_roundMag, fneg_pack_zero]

theorem fdiv_fneg_fneg (h : isNaN (fdiv q a b) = false) (q' : Word) :
    fdiv q' (fneg a) (fneg b) = fdiv q a b := by
  simp only [fdiv, isNaN_fneg, isInf_fneg, isZero_fneg, sign_fneg, unitsMag_fneg] at *
  split_ifs at * <;> simp_all

end

/-! ## Words that compare equal (R13) -/

theorem isFinite_of_not {w : Word} (hn : isNaN w = false) (hi : isInf w = false) : isFinite w = true := by
  simp only [isNaN, isInf, decide_eq_false_iff_not, beq_eq_false_iff_ne] at hn hi
  rw [isFinite_iff]
  omega

theorem isNaN_pack_roundMag (s : Bool) (n d : Nat) : isNaN (pack s (roundMag n d)) = false := by
  have hle := roundMag_le n d
  rw [isNaN, mag_pack s _ (hle.trans_lt (by decide)), decide_eq_false_iff_not]
  omega

theorem isNaN_of_isZero {w : Word} (h : isZero w = true) : isNaN w = false := isNaN_of_isFinite (isFinite_of_isZero h)

theorem feq_self {a : Word} (h : isNaN a = false) : feq a a = true := by simp [feq, h]

theorem feq_comm (a b : Word) : feq a b = feq b a := by simp [feq, Bool.and_comm, eq_comm]

theorem orderKey_fneg (w : Word) : orderKey (fneg w) = -orderKey w := by
  cases h : sign w <;> simp [orderKey, h]

theorem feq_fneg_fneg (a b : Word) : feq (fneg a) (fneg b) = feq a b := by simp [feq, orderKey_fneg]

theorem feq_of_isZero {a b : Word} (ha : isZero a = true) (hb : isZero b = true) : feq a b = true := by
  rw [feq_iff (isNaN_of_isZero ha) (isNaN_of_isZero hb), decide_eq_true_eq, ← toRat_eq_toRat_iff,
    (toRat_eq_zero_iff a).mpr ha, (toRat_eq_zero_iff b).mpr hb]

/-- Words that compare equal are one word or two zeros. -/
theorem eq_or_isZero_of_feq {a b : Word} (h : feq a b = true) : a = b ∨ (isZero a = true ∧ isZero b = true) := by
  simp only [feq, Bool.and_eq_true, decide_eq_true_eq] at h
  have hval := (toRat_eq_toRat_iff a b).mpr h.2
  cases hb : isZero b with
  | false => exact .inl (eq_of_toRat_eq hb hval)
  | true =>
    refine .inr ⟨?_, rfl⟩
    rw [← toRat_eq_zero_iff, hval, toRat_eq_zero_iff, hb]

theorem isZero_fdiv_of_isZero (q : Word) {a b : Word} (ha : isZero a = true) (hn : isNaN b = false)
    (hz : isZero b = false) : isZero (fdiv q a b) = true := by
  cases hi : isInf b with
  | true => rw [fdiv_of_isInf_right q (isFinite_of_isZero ha) hi, isZero_pack_zero]
  | false => rw [fdiv_of_isZero_left q ha (isFinite_of_not hn hi) hz, isZero_pack_zero]

/-- Dividends that compare equal have quotients that do. -/
theorem feq_fdiv_left {q a a' b : Word} (hq : isNaN q = true) (hab : feq a a' = true)
    (h : isNaN (fdiv q a b) = false) (q' : Word) : feq (fdiv q a b) (fdiv q' a' b) = true := by
  rcases eq_or_isZero_of_feq hab with rfl | ⟨ha, ha'⟩
  · rw [fdiv_draw hq h q']
    exact feq_self h
  · obtain ⟨-, hb⟩ := isNaN_operands hq (fdiv_of_isNaN q) h
    have hz : isZero b = false := by
      by_contra hz
      rw [Bool.not_eq_false] at hz
      rw [fdiv_of_isZero_right q (isFinite_of_isZero ha) hz, if_pos ha, hq] at h
      cases h
    exact feq_of_isZero (isZero_fdiv_of_isZero q ha hb hz) (isZero_fdiv_of_isZero q' ha' hb hz)

/-- A sum of finite words is odd, up to the sign of a zero. -/
theorem feq_fneg_fadd (q q' : Word) {a b : Word} (ha : isFinite a = true) (hb : isFinite b = true) :
    feq (fneg (fadd q a b)) (fadd q' (fneg a) (fneg b)) = true := by
  have ha' : isFinite (fneg a) = true := by rwa [isFinite_fneg]
  have hb' : isFinite (fneg b) = true := by rwa [isFinite_fneg]
  have hneg : units (fneg a) + units (fneg b) = -(units a + units b) := by rw [units_fneg, units_fneg, neg_add]
  by_cases h : units a + units b = 0
  · rw [fadd_of_units_add_eq_zero q ha hb h, fadd_of_units_add_eq_zero q' ha' hb' (by rw [hneg, h, neg_zero])]
    exact feq_of_isZero (by rw [isZero_fneg, isZero_pack_zero]) (isZero_pack_zero _)
  · have hsign : decide (-(units a + units b) < 0) = !decide (units a + units b < 0) := by
      rw [← decide_not, decide_eq_decide]; omega
    rw [fadd_of_isFinite q ha hb, fadd_of_isFinite q' ha' hb', hneg, if_neg h, if_neg (neg_ne_zero.mpr h),
      Int.natAbs_neg, hsign, fneg_pack_roundMag]
    exact feq_self (isNaN_pack_roundMag _ _ _)

/-- A zero less `x` is the negated `x`, up to the sign of a zero. -/
theorem feq_fneg_fsub_isZero (q : Word) {z x : Word} (hz : isZero z = true) (hx : isNaN x = false) :
    feq (fneg x) (fsub q z x) = true := by
  have hzfin := isFinite_of_isZero hz
  have hx' : isNaN (fneg x) = false := by rwa [isNaN_fneg]
  cases hi : isInf x with
  | true =>
    rw [fsub, fadd_of_isInf_right q hzfin (by rwa [isInf_fneg])]
    exact feq_self hx'
  | false =>
    have hfin : isFinite (fneg x) = true := by rw [isFinite_fneg]; exact isFinite_of_not hx hi
    obtain ⟨hsum, hval⟩ := toRat_fadd_of_eq q hzfin hfin hfin (by rw [(toRat_eq_zero_iff z).mpr hz, zero_add])
    rw [fsub, feq_iff hx' (isNaN_of_isFinite hsum), decide_eq_true_eq, ← toRat_eq_toRat_iff, hval]

/-! ## The taps in the operations of B64 -/

theorem isFinite_of_isNaN_fsin {x : Word} (h : isNaN (fsin x) = false) : isFinite x = true := by
  have hquiet : ¬isQuietNaN (fsin x) = true := by simp [isQuietNaN, h]
  cases hn : isNaN x with
  | true => exact absurd (isQuietNaN_fsin x (.inl hn)) hquiet
  | false =>
    cases hi : isInf x with
    | true => exact absurd (isQuietNaN_fsin x (.inr hi)) hquiet
    | false => exact isFinite_of_not hn hi

section
variable (q : Word) {n N : Nat} (lambda phi : Word) (hN : N ≤ 1000) (hn : n < N)
include hN hn

theorem tap_of_centre (hc : 2 * n + 1 = N) :
    tap (b64 q) .lowPass n N lambda phi = fdiv q lambda pi ∧
    tap (b64 q) .highPass n N lambda phi = fsub q one (fdiv q lambda pi) ∧
    tap (b64 q) .bandPass n N lambda phi = fdiv q (fsub q phi lambda) pi :=
  tap_of_zero_offset lambda phi ((feq_mm_zero_iff q hN hn).mpr hc)

theorem tap_of_not_centre (hc : 2 * n + 1 ≠ N) {m : Word} (hm : mm (b64 q) n N = m) :
    tap (b64 q) .lowPass n N lambda phi = fdiv q (fsin (fmul q m lambda)) (fmul q m pi) ∧
    tap (b64 q) .highPass n N lambda phi = fneg (fdiv q (fsin (fmul q m lambda)) (fmul q m pi)) ∧
    tap (b64 q) .bandPass n N lambda phi =
      fdiv q (fsub q (fsin (fmul q m phi)) (fsin (fmul q m lambda))) (fmul q m pi) :=
  tap_of_offset lambda phi hm ((feq_mm_zero_iff q hN hn).not.mpr hc)

end

/-! ## Mirror images (R100) -/

section
variable {q : Word} (hq : isNaN q = true) (q' : Word)
include hq

/-- A centre tap that is no NaN shows no draw. -/
theorem tap_draw_of_centre {kind : FilterKind} {n N : Nat} {lambda phi : Word} (hN : N ≤ 1000) (hn : n < N)
    (hc : 2 * n + 1 = N) (h : isNaN (tap (b64 q) kind n N lambda phi) = false) :
    tap (b64 q') kind n N lambda phi = tap (b64 q) kind n N lambda phi := by
  obtain ⟨hL, hH, hB⟩ := tap_of_centre q lambda phi hN hn hc
  obtain ⟨hL', hH', hB'⟩ := tap_of_centre q' lambda phi hN hn hc
  cases kind with
  | lowPass =>
    rw [hL] at h
    rw [hL, hL', fdiv_draw hq h]
  | highPass =>
    rw [hH] at h
    obtain ⟨-, hquot⟩ := isNaN_operands hq (fadd_of_isNaN q) h
    rw [isNaN_fneg] at hquot
    rw [hH, hH', fdiv_draw hq hquot]
    exact fadd_draw hq h q'
  | bandPass =>
    rw [hB] at h
    obtain ⟨hdiff, -⟩ := isNaN_operands hq (fdiv_of_isNaN q) h
    have hsub : fsub q' phi lambda = fsub q phi lambda := fadd_draw hq hdiff q'
    rw [hB, hB', hsub, fdiv_draw hq h]

theorem fsin_fmul_fneg {m x : Word} (h : isNaN (fsin (fmul q m x)) = false) :
    fsin (fmul q' (fneg m) x) = fneg (fsin (fmul q m x)) := by
  have hprod := isNaN_of_isFinite (isFinite_of_isNaN_fsin h)
  rw [fmul_fneg_left hq hprod, fsin_fneg _ hprod]

/-- Over the denominator of the mirror tap a dividend that is odd, up to the sign of a zero, has the same quotient. -/
theorem feq_fdiv_mirror {m x x' : Word} (hx : feq (fneg x) x' = true)
    (h : isNaN (fdiv q x (fmul q m pi)) = false) :
    feq (fdiv q x (fmul q m pi)) (fdiv q' x' (fmul q' (fneg m) pi)) = true := by
  obtain ⟨-, hden⟩ := isNaN_operands hq (fdiv_of_isNaN q) h
  rw [fmul_fneg_left hq hden, ← fdiv_fneg_fneg hq h q]
  exact feq_fdiv_left hq hx (by rwa [fdiv_fneg_fneg hq h]) q'

end

/-- Settles O16: away from the centre the mirror tap has the negated offset, the sine and the denominator are odd in it,
and a difference of sines is odd up to the sign of a zero. -/
theorem tapsAreSymmetricUnderB64 : Obligations.TapsAreSymmetricUnderB64 := by
  intro q q' kind n N lambda phi hN hn hq h
  by_cases hc : 2 * n + 1 = N
  · rw [show N - 1 - n = n by omega, tap_draw_of_centre hq q' hN hn hc h]
    exact feq_self h
  obtain ⟨m, hm⟩ : ∃ m, mm (b64 q) n N = m := ⟨_, rfl⟩
  have hm' : mm (b64 q') (N - 1 - n) N = fneg m := by rw [mm_mirror q hN hn q' hc, hm]
  obtain ⟨hL, hH, hB⟩ := tap_of_not_centre q lambda phi hN hn hc hm
  obtain ⟨hL', hH', hB'⟩ := tap_of_not_centre q' lambda phi hN (by omega) (by omega) hm'
  cases kind with
  | lowPass =>
    rw [hL] at h
    obtain ⟨hsin, -⟩ := isNaN_operands hq (fdiv_of_isNaN q) h
    rw [hL, hL', fsin_fmul_fneg hq q' hsin]
    exact feq_fdiv_mirror hq q' (feq_self (by rwa [isNaN_fneg])) h
  | highPass =>
    rw [hH, isNaN_fneg] at h
    obtain ⟨hsin, -⟩ := isNaN_operands hq (fdiv_of_isNaN q) h
    rw [hH, hH', feq_fneg_fneg, fsin_fmul_fneg hq q' hsin]
    exact feq_fdiv_mirror hq q' (feq_self (by rwa [isNaN_fneg])) h
  | bandPass =>
    rw [hB] at h
    obtain ⟨hdiff, -⟩ := isNaN_operands hq (fdiv_of_isNaN q) h
    obtain ⟨hphi, hlambda⟩ := isNaN_operands hq (fadd_of_isNaN q) hdiff
    rw [isNaN_fneg] at hlambda
    obtain ⟨hphifin, -⟩ := meetsSine_fsin (isFinite_of_isNaN_fsin hphi)
    obtain ⟨hlambdafin, -⟩ := meetsSine_fsin (isFinite_of_isNaN_fsin hlambda)
    rw [hB, hB', fsin_fmul_fneg hq q' hphi, fsin_fmul_fneg hq q' hlambda]
    exact feq_fdiv_mirror hq q' (feq_fneg_fadd q q' hphifin (by rwa [isFinite_fneg])) h

/-! ## A BandPass without an upper edge (R104) -/

/-- The quotient of a zero less `x` is the negated quotient of `x`, up to the sign of a zero. -/
theorem feq_fdiv_fsub_isZero {q z x d : Word} (hq : isNaN q = true) (hz : isZero z = true)
    (h : isNaN (fdiv q x d) = false) : feq (fdiv q (fsub q z x) d) (fneg (fdiv q x d)) = true := by
  obtain ⟨hx, -⟩ := isNaN_operands hq (fdiv_of_isNaN q) h
  rw [feq_comm, ← fdiv_fneg_left hq h q]
  exact feq_fdiv_left hq (feq_fneg_fsub_isZero q hz hx) (by rwa [fdiv_fneg_left hq h, isNaN_fneg]) q

theorem isZero_fsin_fmul_isZero (q : Word) {m z : Word} (hm : isFinite m = true) (hz : isZero z = true) :
    isZero (fsin (fmul q m z)) = true := by
  have hprod : isZero (fmul q m z) = true := by
    rw [fmul_of_isZero q hm (isFinite_of_isZero hz) (.inr hz), isZero_pack_zero]
  rw [fsin_of_isZero hprod, hprod]

/-- Settles O19: at the centre and away from it, the BandPass divides a zero less what the LowPass divides. -/
theorem bandPassWithoutUpperEdge : Obligations.BandPassWithoutUpperEdge := by
  intro q n N lambda hN hn hq h
  by_cases hc : 2 * n + 1 = N
  · obtain ⟨hL, -, hB⟩ := tap_of_centre q lambda zero hN hn hc
    rw [hL] at h
    rw [hL, hB]
    exact feq_fdiv_fsub_isZero hq isZero_zero h
  · obtain ⟨hL, -, hB⟩ := tap_of_not_centre q lambda zero hN hn hc rfl
    rw [hL] at h
    rw [hL, hB]
    exact feq_fdiv_fsub_isZero hq (isZero_fsin_fmul_isZero q (toRat_mm q hN hn).1 isZero_zero) h

end Sys2Proof.Machine.B64
end

section
/-! PROOFS. The design at an infinite sampling rate (`spec/40_design.md` R105). -/

namespace Sys2Proof.Machine.B64

/-! ## Angles -/

theorem sign_fmul {q a b : Word} (hq : isNaN q = true) (h : isNaN (fmul q a b) = false) :
    sign (fmul q a b) = (sign a ^^ sign b) := by
  have hround := (roundMag_le (unitsMag a * unitsMag b) unitsInOne).trans_lt (by decide : infMag < 2 ^ 63)
  unfold fmul at *
  split_ifs at * with hnan hinf hzero
  · simp_all
  · simp_all
  · rw [sign_pack_infMag]
  · rw [sign_pack _ _ hround]

theorem sign_of_flt_zero {w : Word} (h : flt zero w = true) : sign w = false := by
  simp only [flt, Bool.and_eq_true, decide_eq_true_eq] at h
  have hpos : 0 < orderKey w := h.2
  by_contra hs
  rw [Bool.not_eq_false] at hs
  rw [orderKey, if_pos hs] at hpos
  omega

/-- At an infinite rate the angle is a zero with the sign of the frequency. -/
theorem angle_of_infinite_rate {q q' f : Word} (hq' : isNaN q' = true) (h : isFinite (fmul q' pi f) = true) :
    angle (b64 q) f 0x7FF0000000000000#64 = pack (sign f) 0 := by
  have hnan := isNaN_of_isFinite h
  have hrate : fdiv q 0x7FF0000000000000#64 two = 0x7FF0000000000000#64 :=
    fdiv_of_isInf_left q (by decide) isFinite_two
  have hprod : fmul q pi f = fmul q' pi f := fmul_draw hq' hnan q
  calc angle (b64 q) f 0x7FF0000000000000#64 = fdiv q (fmul q pi f) (fdiv q 0x7FF0000000000000#64 two) := rfl
    _ = pack (sign (fmul q' pi f) ^^ false) 0 := by rw [hrate, hprod]; exact fdiv_of_isInf_right q h (by decide)
    _ = pack (sign f) 0 := by rw [sign_fmul hq' hnan]; simp [show sign pi = false by decide]

/-! ## Taps and gain -/

theorem fadd_one_isZero (q : Word) {z : Word} (hz : isZero z = true) : fadd q one z = one :=
  fadd_eq_of_toRat_eq q (by decide) (isFinite_of_isZero hz) (by decide) (by decide)
    (by rw [(toRat_eq_zero_iff z).mpr hz, add_zero])

theorem fadd_zero_one (q : Word) : fadd q zero one = one :=
  fadd_eq_of_toRat_eq q (by decide) (by decide) (by decide) (by decide)
    (by rw [(toRat_eq_zero_iff zero).mpr isZero_zero, zero_add])

theorem fadd_zero_isZero (q : Word) {z : Word} (hz : isZero z = true) : fadd q zero z = zero := by
  rw [fadd_of_isZero q isZero_zero hz]; rfl

theorem isZero_fsub (q : Word) {a b : Word} (ha : isZero a = true) (hb : isZero b = true) :
    isZero (fsub q a b) = true := by
  rw [fsub, fadd_of_isZero q ha (by rwa [isZero_fneg]), isZero_pack_zero]

theorem isNaN_fmul_of_isFinite (q : Word) {a b : Word} (ha : isFinite a = true) (hb : isFinite b = true) :
    isNaN (fmul q a b) = false := by
  rw [fmul_of_isFinite q ha hb, isNaN_pack_roundMag]

section
variable (q : Word) {n N : Nat} {lambda phi : Word} (hN : N ≤ 1000) (hn : n < N) (hl : isZero lambda = true)
include hN hn hl

theorem tap_highPass_of_isZero_angles (hc : 2 * n + 1 = N) : tap (b64 q) .highPass n N lambda phi = one := by
  obtain ⟨-, hH, -⟩ := tap_of_centre q lambda phi hN hn hc
  have hquot := isZero_fdiv_of_isZero q hl (isNaN_of_isFinite isFinite_pi) isZero_pi
  rw [hH, fsub, fadd_one_isZero q (by rwa [isZero_fneg])]

variable (hp : isZero phi = true)
include hp

theorem isZero_tap_of_isZero_angles {kind : FilterKind} (h : ¬(kind = .highPass ∧ 2 * n + 1 = N)) :
    isZero (tap (b64 q) kind n N lambda phi) = true := by
  by_cases hc : 2 * n + 1 = N
  · obtain ⟨hL, -, hB⟩ := tap_of_centre q lambda phi hN hn hc
    have hpi := isNaN_of_isFinite isFinite_pi
    cases kind with
    | lowPass => rw [hL]; exact isZero_fdiv_of_isZero q hl hpi isZero_pi
    | highPass => exact absurd ⟨rfl, hc⟩ h
    | bandPass => rw [hB]; exact isZero_fdiv_of_isZero q (isZero_fsub q hp hl) hpi isZero_pi
  · obtain ⟨hL, hH, hB⟩ := tap_of_not_centre q lambda phi hN hn hc rfl
    have hm := (toRat_mm q hN hn).1
    have hden := isNaN_fmul_of_isFinite q hm isFinite_pi
    have hz := isZero_fmul_mm_pi q hN hn hc
    have hsinl := isZero_fsin_fmul_isZero q hm hl
    have hsinp := isZero_fsin_fmul_isZero q hm hp
    cases kind with
    | lowPass => rw [hL]; exact isZero_fdiv_of_isZero q hsinl hden hz
    | highPass => rw [hH, isZero_fneg]; exact isZero_fdiv_of_isZero q hsinl hden hz
    | bandPass => rw [hB]; exact isZero_fdiv_of_isZero q (isZero_fsub q hsinp hsinl) hden hz

end

/-- The sum of zeros and of a `ONE` at index `c`, if there is such an index. -/
theorem gainSum_impulse (q : Word) (f : Nat → Word) (c N : Nat) (hone : c < N → f c = one)
    (hzero : ∀ n < N, n ≠ c → isZero (f n) = true) :
    gainSum (b64 q) ((List.range N).map f) = if c < N then one else zero := by
  induction N with
  | zero => rfl
  | succ k ih =>
    have hstep : gainSum (b64 q) ((List.range (k + 1)).map f) =
        fadd q (gainSum (b64 q) ((List.range k).map f)) (f k) := by
      simp [gainSum, List.range_succ]
    rw [hstep, ih (fun h => hone (by omega)) (fun n hn => hzero n (by omega))]
    rcases Nat.lt_trichotomy c k with hlt | rfl | hgt
    · rw [if_pos hlt, if_pos (by omega), fadd_one_isZero q (hzero k (by omega) hlt.ne')]
    · rw [if_neg (by omega), if_pos (by omega), hone (by omega), fadd_zero_one]
    · rw [if_neg (by omega), if_neg (by omega), fadd_zero_isZero q (hzero k (by omega) hgt.ne)]

end Sys2Proof.Machine.B64

namespace Sys2Proof.Machine

theorem highPass_iff_of_kindOfNumber {b : BitVec 8} {kind : FilterKind} (h : kindOfNumber b.toNat = some kind) :
    b = 1 ↔ kind = .highPass := by
  have hb : b = 1 ↔ b.toNat = 1 := BitVec.toNat_eq
  rw [hb]
  unfold kindOfNumber at h
  split at h <;> cases h <;> simp_all

/-- Settles O20: both angles are zeros, so every dividend of a kernel is one, and the gain adds zeros and at most one
`ONE`. -/
theorem infiniteSamplingRateDesign : Obligations.InfiniteSamplingRateDesign := by
  rintro i ⟨kind, q, hq, hv, hlambda, hphi, htaps, hgain, -⟩ hfs hf0 hf1
  obtain ⟨⟨-, hmax⟩, hkind⟩ := validate_ok hv
  have hN : i.N ≤ 1000 := by
    rw [Instance.N]
    exact Int.toNat_le.mpr hmax
  have hhigh := highPass_iff_of_kindOfNumber hkind
  have hf0pos : B64.flt B64.zero i.f0 = true := satisfied_of_validate hv .f0Positive
  rw [hfs, B64.angle_of_infinite_rate (by decide) hf0, B64.sign_of_flt_zero hf0pos] at hlambda
  rw [hfs, B64.angle_of_infinite_rate (by decide) hf1] at hphi
  have hl : B64.isZero i.lambda = true := by rw [hlambda, B64.isZero_pack_zero]
  have hp : B64.isZero i.phi = true := by rw [hphi, B64.isZero_pack_zero]
  refine ⟨hlambda, hp, fun n t ht => ?_, ?_⟩
  · have hn : n < i.N := by
      have := (List.getElem?_eq_some_iff.mp ht).1
      rwa [htaps, tapVector_length] at this
    rw [htaps, getElem?_tapVector _ _ _ _ hn] at ht
    obtain rfl := Option.some.inj ht
    rw [hhigh]
    refine ⟨fun ⟨hk, hc⟩ => ?_, B64.isZero_tap_of_isZero_angles _ hN hn hl hp⟩
    rw [hk, B64.tap_highPass_of_isZero_angles _ hN hn hl hc]
  · rw [hgain, htaps]
    by_cases hc : i.kind = 1 ∧ i.N % 2 = 1
    · obtain ⟨hk, hodd⟩ := hc
      obtain rfl := hhigh.mp hk
      have hcN : i.N / 2 < i.N := by omega
      refine (B64.gainSum_impulse _ _ (i.N / 2) i.N (fun _ => ?_) (fun n hn hne => ?_)).trans ?_
      · exact B64.tap_highPass_of_isZero_angles _ hN hcN hl (by omega)
      · exact B64.isZero_tap_of_isZero_angles _ hN hn hl hp (by omega)
      · rw [if_pos hcN, if_pos ⟨hk, hodd⟩]
    · refine (B64.gainSum_impulse _ _ i.N i.N (fun h => absurd h (lt_irrefl _)) (fun n hn _ => ?_)).trans ?_
      · exact B64.isZero_tap_of_isZero_angles _ hN hn hl hp fun ⟨hk, hcen⟩ => hc ⟨hhigh.mpr hk, by omega⟩
      · rw [if_neg (lt_irrefl _), if_neg hc]

end Sys2Proof.Machine
end

section
/-! PROOFS. The streaming formulas (`spec/41_stream.md` R112 to R114): lanes, accumulator and normaliser over any
numerics record, under B64 where a NaN, a zero, a one or an impulse is in the register, and under REAL. -/

namespace Sys2Proof.Machine.B64

/-! ## The operations that the streaming phase turns on (R12) -/

theorem isNaN_of_isQuietNaN {w : Word} (h : isQuietNaN w = true) : isNaN w = true := by
  rw [isQuietNaN, Bool.and_eq_true] at h
  exact h.1

/-- A product with `ONE` is the other operand bit for bit, a zero or an infinity included. -/
theorem fmul_one_left (q : Word) {t : Word} (h : isNaN t = false) : fmul q one t = t := by
  have hfin : isFinite one = true := by decide
  have hpos : (sign one ^^ sign t) = sign t := Bool.false_xor _
  cases hi : isInf t with
  | true =>
    have hmag : mag t = infMag := by simpa [isInf] using hi
    rw [fmul_of_isInf q (.inr hi) (isNaN_of_isFinite hfin) h, isZero_of_isInf hi, if_neg (by decide), hpos, ← hmag,
      pack_sign_mag]
  | false =>
    have ht := isFinite_of_not h hi
    cases hz : isZero t with
    | true =>
      have hmag : mag t = 0 := by simpa [isZero] using hz
      rw [fmul_of_isZero q hfin ht (.inr hz), hpos, ← hmag, pack_sign_mag]
    | false =>
      have hprod : toRat one * toRat t = toRat t := by rw [toRat_one, one_mul]
      have hne : toRat one * toRat t ≠ 0 := by simp [hprod, toRat_eq_zero_iff, hz]
      have hround := roundsTo_fmul q hfin ht hne
      rw [hprod] at hround
      exact eq_of_toRat_eq hz (hround.exact (abs_toRat_lt_overflowBound ht) ht rfl).2

theorem isZero_fmul_of_isZero_left (q : Word) {z t : Word} (hz : isZero z = true) (ht : isFinite t = true) :
    isZero (fmul q z t) = true := by
  rw [fmul_of_isZero q (isFinite_of_isZero hz) ht (.inl hz), isZero_pack_zero]

/-- A zero of either sign added to a finite word that is no zero changes no bit. -/
theorem fadd_isZero_right (q : Word) {a z : Word} (ha : isFinite a = true) (ha0 : isZero a = false)
    (hz : isZero z = true) : fadd q a z = a :=
  fadd_eq_of_toRat_eq q ha (isFinite_of_isZero hz) ha ha0 (by rw [(toRat_eq_zero_iff z).mpr hz, add_zero])

theorem fadd_zero_left (q : Word) {a : Word} (ha : isFinite a = true) (ha0 : isZero a = false) :
    fadd q zero a = a :=
  fadd_eq_of_toRat_eq q (isFinite_of_isZero isZero_zero) ha ha ha0
    (by rw [(toRat_eq_zero_iff zero).mpr isZero_zero, zero_add])

theorem fdiv_self (q : Word) {a : Word} (ha : isFinite a = true) (ha0 : isZero a = false) : fdiv q a a = one := by
  have hne : toRat a ≠ 0 := by simp [toRat_eq_zero_iff, ha0]
  exact eq_of_toRat_eq (by decide)
    (toRat_fdiv_of_eq q ha ha (by decide) ha0 (by rw [div_self hne, toRat_one])).2

/-- Two results that are the same but for their draws are one word if one of them is no NaN. -/
theorem SameResult.eq_of_isNaN_eq_false {a b : Word} (h : SameResult a b) (hb : isNaN b = false) : a = b := by
  obtain h | ⟨-, hb'⟩ := h
  · exact h
  · rw [hb] at hb'
    cases hb'

end Sys2Proof.Machine.B64

namespace Sys2Proof.Machine

/-! ## Lanes and accumulator over any numerics record (R112, R113) -/

section
variable {F : Type} (num : Num F)

/-- The lanes by index, whatever defaults the entries are read with. -/
theorem products_eq_map_range {sr taps : List F} {n : Nat} (d e : F) (hsr : sr.length = n) (htaps : taps.length = n) :
    products num sr taps = (List.range n).map fun j => num.fmul (sr.getD j d) (taps.getD j e) := by
  refine List.ext_getElem (by simp [products, hsr, htaps]) fun j hj _ => ?_
  have hlt : j < n := by simpa [products, hsr, htaps] using hj
  simp [products, hsr, htaps, hlt]

/-- The raw sum as a loop over the lanes. -/
theorem convolve_eq_foldl_range {sr taps : List F} {n : Nat} (d : F) (hsr : sr.length = n) (htaps : taps.length = n) :
    convolve num sr taps =
      (List.range n).foldl (fun acc j => num.fadd acc (num.fmul (sr.getD j d) (taps.getD j d))) num.zero := by
  rw [convolve, accumulate, products_eq_map_range num d d hsr htaps, List.foldl_map]

end

/-! ## NaNs, zeros and an impulse under B64 (R118, R121) -/

theorem foldl_fadd_draw {q : Word} (hq : B64.isNaN q = true) (ps : List Word) : ps.foldl (B64.fadd q) q = q := by
  induction ps with
  | nil => rfl
  | cons p ps ih => rw [List.foldl_cons, B64.fadd_of_isNaN q (.inl hq), ih]

/-- One NaN lane makes the sum the draw, wherever it stands. -/
theorem accumulate_of_isNaN {q p : Word} {ps : List Word} (hq : B64.isNaN q = true) (hmem : p ∈ ps)
    (hp : B64.isNaN p = true) : accumulate (b64 q) ps = q := by
  obtain ⟨before, after, rfl⟩ := List.append_of_mem hmem
  rw [accumulate, List.foldl_append, List.foldl_cons, b64_fadd, B64.fadd_of_isNaN q (.inr hp), foldl_fadd_draw hq]

/-- A NaN in the register has a lane of its own, and no later operation brings a number back. -/
theorem outputValue_of_isNaN {q w : Word} {i : Instance} {sr : List Word} (hq : B64.isNaN q = true)
    (hlen : sr.length = i.taps.length) (hmem : w ∈ sr) (hw : B64.isNaN w = true) : outputValue (b64 q) i sr = q := by
  obtain ⟨j, hj, rfl⟩ := List.getElem_of_mem hmem
  have hlane : q ∈ products (b64 q) sr i.taps := by
    refine List.mem_of_getElem (i := j) (h := by simp [products, hlen.symm, hj]) ?_
    simp [products, B64.fmul_of_isNaN q (.inl hw)]
  rw [outputValue, normalise, convolve, accumulate_of_isNaN hq hlane hq]
  split
  · exact B64.fdiv_of_isNaN q (.inl hq)
  · rfl

/-- Zeros leave an accumulator that they leave one by one. -/
theorem foldl_fadd_isZero {q a : Word} {ps : List Word} (ha : ∀ z, B64.isZero z = true → B64.fadd q a z = a)
    (hps : ∀ p ∈ ps, B64.isZero p = true) : ps.foldl (B64.fadd q) a = a := by
  induction ps with
  | nil => rfl
  | cons p ps ih =>
    obtain ⟨hp, hrest⟩ := List.forall_mem_cons.mp hps
    rw [List.foldl_cons, ha p hp, ih hrest]

theorem accumulate_isZero (q : Word) {ps : List Word} (hps : ∀ p ∈ ps, B64.isZero p = true) :
    accumulate (b64 q) ps = B64.zero :=
  foldl_fadd_isZero (fun _ => B64.fadd_zero_isZero q) hps

/-- Of lanes that are zeros but for lane `c`, the sum is that lane, or `ZERO` where it is a zero too. -/
theorem accumulate_impulse (q : Word) {f : Nat → Word} {c n : Nat} (hc : c < n) (hfin : B64.isFinite (f c) = true)
    (hzero : ∀ j < n, j ≠ c → B64.isZero (f j) = true) :
    accumulate (b64 q) ((List.range n).map f) = if B64.isZero (f c) = true then B64.zero else f c := by
  obtain ⟨m, rfl⟩ := Nat.exists_eq_add_of_le (Nat.succ_le_of_lt hc)
  have hbefore : ∀ p ∈ (List.range c).map f, B64.isZero p = true :=
    List.forall_mem_map.mpr fun j hj => have hj := List.mem_range.mp hj; hzero j (by omega) hj.ne
  have hafter : ∀ p ∈ (List.range m).map (fun j => f (c.succ + j)), B64.isZero p = true :=
    List.forall_mem_map.mpr fun j hj => have hj := List.mem_range.mp hj; hzero _ (by omega) (by omega)
  have hsplit : (List.range (c.succ + m)).map f =
      (List.range c).map f ++ f c :: (List.range m).map (fun j => f (c.succ + j)) := by
    rw [List.range_add, List.range_succ]
    simp [Function.comp_def]
  have hstep : accumulate (b64 q) ((List.range (c.succ + m)).map f) =
      ((List.range m).map fun j => f (c.succ + j)).foldl (B64.fadd q) (B64.fadd q B64.zero (f c)) := by
    rw [hsplit, accumulate, List.foldl_append, b64_fadd, b64_zero,
      foldl_fadd_isZero (fun _ => B64.fadd_zero_isZero q) hbefore, List.foldl_cons]
  rw [hstep]
  split
  · next hz => rw [B64.fadd_zero_isZero q hz, foldl_fadd_isZero (fun _ => B64.fadd_zero_isZero q) hafter]
  · next hz =>
    rw [Bool.not_eq_true] at hz
    rw [B64.fadd_zero_left q hfin hz, foldl_fadd_isZero (fun _ => B64.fadd_isZero_right q hfin hz) hafter]

/-! ## A register of ones (R123) -/

/-- The lanes of a register of ones are the taps, but for the draws of NaN taps. -/
theorem sameResult_products_ones {q : Word} (hq : B64.isNaN q = true) (taps : List Word) :
    List.Forall₂ B64.SameResult (products (b64 q) (List.replicate taps.length B64.one) taps) taps := by
  induction taps with
  | nil => exact .nil
  | cons t taps ih =>
    refine .cons ?_ ih
    cases ht : B64.isNaN t with
    | true => exact .inr ⟨by rw [b64_fmul, B64.fmul_of_isNaN q (.inr ht), hq], ht⟩
    | false => exact .inl (B64.fmul_one_left q ht)

/-- The raw sum over ones is added up as the gain was. -/
theorem convolve_ones {q q' : Word} (hq : B64.isNaN q = true) (hq' : B64.isNaN q' = true) {taps : List Word}
    (hgain : B64.isNaN (gainSum (b64 q') taps) = false) :
    convolve (b64 q) (List.replicate taps.length B64.one) taps = gainSum (b64 q') taps :=
  (sameResult_foldl hq hq' (sameResult_products_ones hq taps)
    (B64.sameResult_refl B64.zero)).eq_of_isNaN_eq_false hgain

/-! ## The sums under REAL (R120, R123) -/

theorem foldl_fadd_real (ps : List ℝ) : ps.foldl real.fadd real.zero = ps.sum :=
  List.sum_eq_foldl.symm

/-- Settles O30: the constant is a factor of every lane. -/
theorem constantInputUnderReal : Obligations.ConstantInputUnderReal := by
  intro taps c
  have hlanes : products real (List.replicate taps.length c) taps = taps.map (c * ·) := by
    induction taps with
    | nil => rfl
    | cons t taps ih => exact congrArg _ ih
  have hraw : convolve real (List.replicate taps.length c) taps = c * gainSum real taps := by
    rw [convolve, accumulate, gainSum, foldl_fadd_real, foldl_fadd_real, hlanes, List.sum_map_mul_left, List.map_id']
  exact ⟨hraw, fun hgain => by rw [hraw]; exact mul_div_cancel_right₀ c hgain⟩

theorem convolve_real {sr taps : List ℝ} (hsr : sr.length = taps.length) :
    convolve real sr taps = ∑ j ∈ Finset.range taps.length, sr.getD j 0 * taps.getD j 0 := by
  rw [convolve, accumulate, foldl_fadd_real, products_eq_map_range real 0 0 hsr rfl]
  rfl

/-! ## Normalisation by a zero (R117) -/

/-- Settles O27, by the class of the raw sum. -/
theorem normalisationByZeroGain : Obligations.NormalisationByZeroGain := by
  intro q raw gain hgain
  have hnorm : normalise (b64 q) 1 raw gain = B64.fdiv q raw gain := rfl
  rw [hnorm]
  refine ⟨?_, fun hnan hzero => ?_⟩
  · rintro (hnan | hzero)
    · exact B64.fdiv_of_isNaN q (.inl hnan)
    · rw [B64.fdiv_of_isZero_right q (B64.isFinite_of_isZero hzero) hgain, if_pos hzero]
  · have hquot : B64.fdiv q raw gain = B64.pack (B64.sign raw ^^ B64.sign gain) B64.infMag := by
      cases hi : B64.isInf raw with
      | true => exact B64.fdiv_of_isInf_left q hi (B64.isFinite_of_isZero hgain)
      | false =>
        rw [B64.fdiv_of_isZero_right q (B64.isFinite_of_not hnan hi) hgain, hzero, if_neg Bool.false_ne_true]
    rw [hquot]
    exact ⟨B64.isInf_pack_infMag _, B64.sign_pack_infMag _⟩

end Sys2Proof.Machine
end

section
/-! PROOFS. PROCESS and streams of samples (`spec/41_stream.md` R110, R118, R120, R121, R123): the register after a
stream, the responses on the way, and what they say of impulses, ones, NaNs and evicted samples. -/

namespace Sys2Proof.Machine

/-! ## The register after a stream of samples (R111) -/

section
variable {F : Type}

/-- A register of `n` entries after the samples `xs` were pushed on `sr` one by one: the last of them is in front. -/
def pushAll (n : Nat) (xs sr : List F) : List F := (xs.reverse ++ sr).take n

theorem pushAll_nil {n : Nat} {sr : List F} (h : sr.length = n) : pushAll n [] sr = sr :=
  List.take_of_length_le h.le

theorem pushAll_cons (n : Nat) (x : F) (xs sr : List F) :
    pushAll n (x :: xs) sr = pushAll n xs ((x :: sr).take n) := by
  simp [pushAll, List.take_append, List.take_take]

theorem pushAll_length {n : Nat} {sr : List F} (h : sr.length = n) (xs : List F) : (pushAll n xs sr).length = n := by
  simp [pushAll, h]

/-- As many samples as there are entries leave nothing of the register before them (R118). -/
theorem pushAll_evicts {n : Nat} {xs : List F} (h : n ≤ xs.length) (sr sr' : List F) :
    pushAll n xs sr = pushAll n xs sr' := by
  have hlen : n ≤ xs.reverse.length := by rwa [List.length_reverse]
  rw [pushAll, pushAll, List.take_append_of_le_length hlen, List.take_append_of_le_length hlen]

/-- Entry `j` after sample `k` of a stream is sample `k - j`, and the entry of the first register before there was one
(R120). -/
theorem pushAll_take_getD {n j k : Nat} {xs : List F} (z : F) (hj : j < n) (hk : k < xs.length) :
    (pushAll n (xs.take (k + 1)) (List.replicate n z)).getD j z = if j ≤ k then xs.getD (k - j) z else z := by
  have hlen : (xs.take (k + 1)).length = k + 1 := List.length_take_of_le hk
  rw [pushAll, List.getD_eq_getElem?_getD, List.getElem?_take_of_lt hj]
  split
  · next hjk =>
    rw [List.getElem?_append_left (by rw [List.length_reverse, hlen]; omega),
      List.getElem?_reverse (by omega), hlen, List.getElem?_take_of_lt (by omega), List.getD_eq_getElem?_getD]
    rfl
  · next hjk =>
    rw [List.getElem?_append_right (by rw [List.length_reverse, hlen]; omega), List.length_reverse, hlen,
      List.getElem?_replicate_of_lt (by omega), Option.getD_some]

/-- The raw output of sample `k` is the sum over the register after it (R120). -/
theorem rawOutputs_getElem? (num : Num F) (n : Nat) (taps sr xs : List F) {k : Nat} (hk : k < xs.length) :
    (rawOutputs num n taps sr xs)[k]? = some (convolve num (pushAll n (xs.take (k + 1)) sr) taps) := by
  induction xs generalizing sr k with
  | nil => cases hk
  | cons x xs ih =>
    rw [rawOutputs, List.take_succ_cons, pushAll_cons]
    cases k with
    | zero => simp [pushAll, List.take_take]
    | succ k => exact ih _ (Nat.lt_of_succ_lt_succ hk)

end

theorem latest_eq_pushAll (n : Nat) (xs : List Word) : latest n xs = pushAll n xs (List.replicate n B64.zero) := rfl

/-- Settles O29: lane `j` of the sum for sample `k` holds sample `k - j`. -/
theorem convolutionUnderReal : Obligations.ConvolutionUnderReal := by
  intro taps xs k hk
  rw [rawOutputs_getElem? _ _ _ _ _ hk, convolve_real (pushAll_length (List.length_replicate ..) _)]
  refine congrArg some (Finset.sum_congr rfl fun j hj => ?_)
  rw [pushAll_take_getD 0 (Finset.mem_range.mp hj) hk, mul_comm]

/-! ## One PROCESS (R110) -/

theorem isQuietNaN_draw (d : Nat) : B64.isQuietNaN (B64.quietNaN (Config.freeNaN d)) = true :=
  B64.isQuietNaN_quietNaN _

theorem isNaN_draw (d : Nat) : B64.isNaN (B64.quietNaN (Config.freeNaN d)) = true :=
  B64.isNaN_of_isQuietNaN (isQuietNaN_draw d)

/-- What PROCESS does on a constructed filter. -/
theorem exec_process {s : State} {i : Instance} (hi : s.inst = some i) (x : Word) :
    exec (.process x) s = .next (((s.withInst (i.writeSr (shiftIn i.N x i.sr))).advanceDraws 1).respond .ok
      (outputValue (b64Draw s.draws) i (shiftIn i.N x i.sr))) :=
  onInstance_some s i _ hi

theorem Instance.taps_length_of_wf {i : Instance} (h : i.wf = true) : i.taps.length = i.N := by
  obtain ⟨-, -, htaps, -, -⟩ := i.wf_iff.mp h
  exact htaps

/-- Settles O21: the sum over the lanes as a loop, and the push entry by entry. -/
theorem processEffect : Obligations.ProcessEffect := by
  intro s i x hi hwf
  have htaps := Instance.taps_length_of_wf hwf
  have hlen := shiftIn_length i.N x i.sr (Instance.sr_length_of_wf hwf)
  have hN := i.one_le_N hwf
  refine ⟨congrArg Except.ok (decodeCommand_commandWord 1 x), shiftIn i.N x i.sr, _, _, _, exec_process hi x, hlen, ?_,
    fun j hj hjN => ?_, isQuietNaN_draw s.draws, ?_⟩
  · rw [shiftIn, List.getElem?_take_of_lt hN, List.getElem?_cons_zero]
  · rw [shiftIn, List.getElem?_take_of_lt hjN, List.getElem?_cons, if_neg (by omega)]
  · rw [outputValue, convolve_eq_foldl_range _ 0 hlen htaps]
    rfl

/-- Settles O26: the response is the draw. -/
theorem naNInRegisterGivesNaN : Obligations.NaNInRegisterGivesNaN := by
  rintro s i x hi hwf ⟨w, hmem, hw⟩
  have hlen : (shiftIn i.N x i.sr).length = i.taps.length := by
    rw [shiftIn_length _ _ _ (Instance.sr_length_of_wf hwf), Instance.taps_length_of_wf hwf]
  refine ⟨_, _, exec_process hi x, rfl, ?_⟩
  rw [b64Draw, outputValue_of_isNaN (isNaN_draw _) hlen hmem hw]
  exact isQuietNaN_draw _

/-- Settles O28: the raw sum is the gain, and the gain divided by itself is `ONE`. -/
theorem onesGiveUnityResponse : Obligations.OnesGiveUnityResponse := by
  intro s i hi hdes hones hfin hzero
  have htaps := Instance.taps_length_of_wf (designedInstanceIsWellFormed i hdes)
  obtain ⟨kind, q, hq, -, -, -, -, hgain, -⟩ := hdes
  have hraw : convolve (b64Draw s.draws) (List.replicate i.N B64.one) i.taps = i.gain := by
    have hnan := B64.isNaN_of_isFinite hfin
    rw [hgain] at hnan
    rw [← htaps, b64Draw, convolve_ones (isNaN_draw _) (B64.isNaN_of_isQuietNaN (hq _)) hnan, ← hgain]
  have hvalue : outputValue (b64Draw s.draws) i (shiftIn i.N B64.one i.sr) =
      if i.normalize = 1 then B64.one else i.gain := by
    rw [hones, outputValue, normalise, hraw]
    exact if_congr Iff.rfl (B64.fdiv_self _ hfin hzero) rfl
  exact ⟨_, exec_process hi _, congrArg (fun y => s.outputs ++ [.response (responseWord .ok y)]) hvalue⟩

/-! ## A stream of PROCESS operations (R120) -/

/-- The response to sample `k` of a stream, when `d` draws were made before it. -/
def streamValue (i : Instance) (d : Nat) (xs : List Word) (k : Nat) : Word :=
  outputValue (b64Draw (d + k)) i (pushAll i.N (xs.take (k + 1)) i.sr)

/-- Every response to a stream, in order. -/
def streamValues (i : Instance) (d : Nat) (xs : List Word) : List Word :=
  (List.range xs.length).map (streamValue i d xs)

@[simp] theorem streamValues_length (i : Instance) (d : Nat) (xs : List Word) :
    (streamValues i d xs).length = xs.length := by
  simp [streamValues]

theorem streamValues_getElem? (i : Instance) (d : Nat) {xs : List Word} {k : Nat} (hk : k < xs.length) :
    (streamValues i d xs)[k]? = some (streamValue i d xs k) := by
  simp [streamValues, hk]

/-- The first response, and then those to the rest of the stream after the first push. -/
theorem streamValues_cons (i : Instance) (d : Nat) (x : Word) (xs : List Word) :
    streamValues i d (x :: xs) = outputValue (b64Draw d) i (shiftIn i.N x i.sr) ::
      streamValues (i.writeSr (shiftIn i.N x i.sr)) (d + 1) xs := by
  rw [streamValues, List.length_cons, List.range_succ_eq_map, List.map_cons, List.map_map]
  refine congrArg₂ List.cons ?_ ?_
  · simp [streamValue, pushAll, shiftIn]
  · refine List.map_congr_left fun k _ => ?_
    rw [Function.comp_apply, streamValue, streamValue, List.take_succ_cons, pushAll_cons,
      ← Nat.succ_add_eq_add_succ]
    rfl

/-- FEED completes, with the register and the responses of the whole stream. -/
theorem runInstrs_feed {s : State} {i : Instance} (xs : List Word) (hi : s.inst = some i) (hsr : i.sr.length = i.N) :
    ∃ t, runInstrs (feed xs) s = .next t ∧ t.inst = some (i.writeSr (pushAll i.N xs i.sr)) ∧
      t.outputs = s.outputs ++ (streamValues i s.draws xs).map fun y => .response (responseWord .ok y) := by
  induction xs generalizing s i with
  | nil =>
    refine ⟨s, rfl, ?_, (List.append_nil _).symm⟩
    rw [pushAll_nil hsr, Instance.writeSr_self, hi]
  | cons x xs ih =>
    obtain ⟨t, ht, hti, hout⟩ := ih (s := ((s.withInst (i.writeSr (shiftIn i.N x i.sr))).advanceDraws 1).respond .ok
      (outputValue (b64Draw s.draws) i (shiftIn i.N x i.sr))) rfl (shiftIn_length _ _ _ hsr)
    refine ⟨t, ?_, ?_, ?_⟩
    · rw [feed, List.map_cons, runInstrs, exec_process hi]
      exact ht
    · rw [hti, pushAll_cons]
      rfl
    · rw [hout, streamValues_cons]
      simp

/-- Settles O25: from sample `N - 1` on both registers hold samples of the stream only. -/
theorem evictedSamplesAreForgotten : Obligations.EvictedSamplesAreForgotten := by
  intro s s' i sr' xs hi hwf hi' hlen' hN
  obtain ⟨t, ht, hti, hout⟩ := runInstrs_feed xs hi (Instance.sr_length_of_wf hwf)
  obtain ⟨t', ht', hti', hout'⟩ := runInstrs_feed xs hi' hlen'
  refine ⟨t, t', _, _, ht, ht', ?_, hout, hout', streamValues_length .., streamValues_length .., fun k hNk hk => ?_⟩
  · rw [hti, hti', pushAll_evicts hN i.sr sr']
    rfl
  · have hpushed : i.N ≤ (xs.take (k + 1)).length := by rw [List.length_take]; omega
    rw [List.getD_eq_getElem?_getD, List.getD_eq_getElem?_getD, streamValues_getElem? _ _ hk,
      streamValues_getElem? _ _ hk, Option.getD_some, Option.getD_some, streamValue, pushAll_evicts hpushed i.sr sr']
    exact sameResult_outputValue (isNaN_draw _) (isNaN_draw _) i _

/-! ## The impulse (R121) -/

/-- The samples of IMPULSE. -/
def impulseSamples (n : Nat) : List Word := B64.one :: List.replicate (n - 1) B64.zero

theorem impulseSamples_length {n : Nat} (h : 1 ≤ n) : (impulseSamples n).length = n := by
  rw [impulseSamples, List.length_cons, List.length_replicate, Nat.sub_add_cancel h]

theorem impulse_eq_feed (n : Nat) : impulse n = feed (impulseSamples n) := rfl

/-- After sample `k` of an impulse the `ONE` stands at entry `k`. -/
theorem pushAll_impulse_getD {n j k : Nat} (hj : j < n) (hk : k < n) :
    (pushAll n ((impulseSamples n).take (k + 1)) (List.replicate n B64.zero)).getD j B64.zero =
      if j = k then B64.one else B64.zero := by
  rw [pushAll_take_getD _ hj (by rwa [impulseSamples_length (by omega)])]
  rcases Nat.lt_trichotomy j k with hlt | rfl | hgt
  · obtain ⟨m, hm⟩ : ∃ m, k - j = m + 1 := ⟨k - j - 1, by omega⟩
    rw [if_pos hlt.le, if_neg hlt.ne, hm, impulseSamples, List.getD_cons_succ, List.getD_replicate _ (by omega)]
  · rw [if_pos le_rfl, if_pos rfl, Nat.sub_self]
    rfl
  · rw [if_neg (by omega), if_neg hgt.ne']

/-- The impulse has gone through after one more `ZERO`. -/
theorem shiftIn_zero_impulse {n : Nat} (h : 1 ≤ n) :
    shiftIn n B64.zero (pushAll n (impulseSamples n) (List.replicate n B64.zero)) = List.replicate n B64.zero := by
  have hzeros : impulseSamples n ++ [B64.zero] = B64.one :: List.replicate n B64.zero := by
    rw [impulseSamples, List.cons_append, ← List.replicate_succ', Nat.sub_add_cancel h]
  rw [← latest_eq_pushAll, shiftIn_latest, hzeros, latest_eq_pushAll, pushAll_cons,
    pushAll_evicts List.length_replicate.ge _ []]
  simp [pushAll]

section
variable {i : Instance} (htaps : i.taps.length = i.N) (hfin : ∀ t ∈ i.taps, B64.isFinite t = true)
include htaps hfin

theorem isFinite_taps_getD {j : Nat} (hj : j < i.N) : B64.isFinite (i.taps.getD j 0) = true := by
  rw [List.getD_eq_getElem _ _ (htaps.symm ▸ hj)]
  exact hfin _ (List.getElem_mem _)

/-- The raw sum over a register with a `ONE` at entry `k` and zeros elsewhere. -/
theorem convolve_impulse (q : Word) {sr : List Word} {k : Nat} (hk : k < i.N) (hsr : sr.length = i.N)
    (hentry : ∀ j < i.N, sr.getD j B64.zero = if j = k then B64.one else B64.zero) :
    convolve (b64 q) sr i.taps =
      if B64.isZero (i.taps.getD k 0) = true then B64.zero else i.taps.getD k 0 := by
  have hlane : B64.fmul q (sr.getD k B64.zero) (i.taps.getD k 0) = i.taps.getD k 0 := by
    rw [hentry k hk, if_pos rfl, B64.fmul_one_left q (B64.isNaN_of_isFinite (isFinite_taps_getD htaps hfin hk))]
  rw [convolve, products_eq_map_range _ B64.zero 0 hsr htaps, b64_fmul, accumulate_impulse q hk, hlane]
  · rw [hlane]
    exact isFinite_taps_getD htaps hfin hk
  · intro j hj hne
    rw [hentry j hj, if_neg hne]
    exact B64.isZero_fmul_of_isZero_left q B64.isZero_zero (isFinite_taps_getD htaps hfin hj)

theorem convolve_zeros (q : Word) : convolve (b64 q) (List.replicate i.N B64.zero) i.taps = B64.zero := by
  rw [convolve, products_eq_map_range _ B64.zero 0 List.length_replicate htaps]
  refine accumulate_isZero q (List.forall_mem_map.mpr fun j hj => ?_)
  have hj := List.mem_range.mp hj
  rw [List.getD_replicate _ hj]
  exact B64.isZero_fmul_of_isZero_left q B64.isZero_zero (isFinite_taps_getD htaps hfin hj)

end

/-- Settles O24: response `k` is tap `k` through the normaliser, and one `ZERO` more empties the register. -/
theorem impulseResponseEqualsTaps : Obligations.ImpulseResponseEqualsTaps := by
  intro s i hi hwf hsr hfin
  have htaps := Instance.taps_length_of_wf hwf
  have hlen := impulseSamples_length (i.one_le_N hwf)
  obtain ⟨t, ht, hti, hout⟩ := runInstrs_feed (impulseSamples i.N) hi (Instance.sr_length_of_wf hwf)
  rw [impulse_eq_feed]
  refine ⟨t, _, ht, hout, (streamValues_length ..).trans hlen, fun k hk => ?_, ?_⟩
  · refine ⟨_, isQuietNaN_draw (s.draws + k), ?_⟩
    have hraw := convolve_impulse htaps hfin (B64.quietNaN (Config.freeNaN (s.draws + k))) hk
      (pushAll_length List.length_replicate _) fun j hj => pushAll_impulse_getD hj hk
    rw [streamValues_getElem? _ _ (hlen.symm ▸ hk), streamValue, hsr, outputValue, b64Draw, hraw]
    exact ⟨fun hz => by rw [if_neg (ne_true_of_eq_false hz)]; rfl, fun hz => by rw [if_pos hz]; rfl⟩
  · have hclear : shiftIn i.N B64.zero (pushAll i.N (impulseSamples i.N) i.sr) = List.replicate i.N B64.zero := by
      rw [hsr, shiftIn_zero_impulse (i.one_le_N hwf)]
    have hexec := exec_process hti B64.zero
    simp only [Instance.writeSr_N, Instance.writeSr_sr, Instance.writeSr_writeSr, hclear] at hexec
    refine ⟨_, _, hexec, ?_, isQuietNaN_draw t.draws, ?_⟩
    · rw [← hsr]
      rfl
    · have hraw := convolve_zeros htaps hfin (B64.quietNaN (Config.freeNaN t.draws))
      rw [State.respond_outputs, State.advanceDraws_outputs, State.withInst_outputs, outputValue, b64Draw,
        Instance.writeSr_taps, hraw]
      rfl

end Sys2Proof.Machine
end

section
/-! PROOFS. The introspection accessors, NOP and DESCRIBE (`spec/42_access.md` R130 to R143): what each
answers, that the answers about the constants stay, and that leaving accessors out changes no response of PROCESS. -/

namespace Sys2Proof.Machine

/-! ## The answer of each accessor (R130, R134, R136, R138, R140) -/

/-- The response to a command that reads one word (R41, R158). -/
def readResponse : Option Word → ResponseWord
  | some d => responseWord .ok d
  | none => responseWord .badIndex 0

theorem State.answerRead_eq (s : State) (o : Option Word) :
    s.answerRead o = { s with outputs := s.outputs ++ [.response (readResponse o)] } := by
  cases o with
  | some d => rfl
  | none => rfl

section
variable {s : State} {i : Instance} (hi : s.inst = some i)
include hi

theorem exec_nop : exec .nop s = .next (s.respond .ok 0) := onInstance_some s i _ hi

theorem exec_rdgain : exec .rdgain s = .next (s.respond .ok i.gain) := onInstance_some s i _ hi

theorem exec_rdtap (idx : Nat) : exec (.rdtap idx) s = .next (s.answerRead (i.memRead .tap idx)) :=
  onInstance_some s i _ hi

theorem exec_rdsr (idx : Nat) : exec (.rdsr idx) s = .next (s.answerRead (i.memRead .sr idx)) :=
  onInstance_some s i _ hi

theorem exec_rdcfg (idx : Nat) : exec (.rdcfg idx) s = .next (s.answerRead (i.cfgWord idx)) :=
  onInstance_some s i _ hi

end

/-- The gain has one home and two readers, with a filter or without one (R24). -/
theorem exec_rdcfg_seven (s : State) : exec (.rdcfg 7) s = exec .rdgain s := rfl

/-! ## The words behind the answers -/

/-- The response to a read of a space that is held in a list of its full size `n`. -/
theorem readResponse_getElem? {n : Nat} {ws : List Word} (hlen : ws.length = n) (idx : Nat) :
    readResponse (if idx < n then ws[idx]? else none) =
      if idx < n then responseWord .ok (ws.getD idx 0) else responseWord .badIndex 0 := by
  split
  · next hidx =>
    rw [List.getD_eq_getElem?_getD, List.getElem?_eq_getElem (hlen ▸ hidx), readResponse, Option.getD_some]
  · rfl

theorem readResponse_tap {i : Instance} (hwf : i.wf = true) (idx : Nat) : readResponse (i.memRead .tap idx) =
    if idx < i.N then responseWord .ok (i.taps.getD idx 0) else responseWord .badIndex 0 :=
  readResponse_getElem? (Instance.taps_length_of_wf hwf) idx

theorem readResponse_sr {i : Instance} (hwf : i.wf = true) (idx : Nat) : readResponse (i.memRead .sr idx) =
    if idx < i.N then responseWord .ok (i.sr.getD idx 0) else responseWord .badIndex 0 :=
  readResponse_getElem? (Instance.sr_length_of_wf hwf) idx

/-- There is no configuration register from 10 on (R25). -/
theorem cfgWord_of_ge (i : Instance) {idx : Nat} (h : 10 ≤ idx) : i.cfgWord idx = none :=
  Option.not_isSome_iff_eq_none.mp fun hsome => h.not_gt ((i.cfgWord_isSome idx).mp hsome)

/-! ## The answers about the constants stay (R130, R138) -/

/-- After any number of steps there is still a filter, and its tap ROM and configuration registers read as before
(R23 to R25). -/
theorem run_keeps_memRead {k : Nat} {s t : State} {i : Instance} (hi : s.inst = some i) (h : core.run k s = .next t) :
    ∃ j, t.inst = some j ∧ ∀ sp, sp ≠ .sr → ∀ idx, j.memRead sp idx = i.memRead sp idx := by
  obtain ⟨sr, hsr⟩ := constantsNeverChange k s t i hi h
  exact ⟨i.writeSr sr, hsr, i.memRead_writeSr sr⟩

theorem exec_rdtap_of_run {k : Nat} {s t : State} {i : Instance} (hi : s.inst = some i) (h : core.run k s = .next t)
    (idx : Nat) : exec (.rdtap idx) t = .next (t.answerRead (i.memRead .tap idx)) := by
  obtain ⟨j, hj, hread⟩ := run_keeps_memRead hi h
  rw [exec_rdtap hj, hread .tap (by decide)]

theorem exec_rdcfg_of_run {k : Nat} {s t : State} {i : Instance} (hi : s.inst = some i) (h : core.run k s = .next t)
    (idx : Nat) : exec (.rdcfg idx) t = .next (t.answerRead (i.cfgWord idx)) := by
  obtain ⟨j, hj, hread⟩ := run_keeps_memRead hi h
  rw [exec_rdcfg hj, ← Instance.memRead_cfg, hread .cfg (by decide), Instance.memRead_cfg]

/-- Settles O32: the read of the tap ROM, now and after a run. -/
theorem rdtapAnswers : Obligations.RdtapAnswers := by
  refine ⟨fun arg => congrArg Except.ok (decodeCommand_commandWord 2 arg), fun s i idx hi hwf => ?_⟩
  rw [← readResponse_tap hwf]
  simp only [← State.answerRead_eq]
  exact ⟨exec_rdtap hi idx, fun k t h => exec_rdtap_of_run hi h idx⟩

/-- Settles O33: RDGAIN responds, and `RDCFG 7` has the same meaning. -/
theorem rdgainAnswers : Obligations.RdgainAnswers :=
  ⟨fun arg => congrArg Except.ok (decodeCommand_commandWord 3 arg),
    fun s _ hi => ⟨exec_rdgain hi, exec_rdcfg_seven s⟩⟩

/-- Settles O34: the read of the shift register. -/
theorem rdsrAnswers : Obligations.RdsrAnswers := by
  refine ⟨fun arg => congrArg Except.ok (decodeCommand_commandWord 4 arg), fun s i idx hi hwf => ?_⟩
  rw [← readResponse_sr hwf, ← State.answerRead_eq]
  exact exec_rdsr hi idx

/-- Settles O35: the map of R25 register by register; a response that was given once is the read of a constant, and so
the response after a run. -/
theorem rdcfgAnswers : Obligations.RdcfgAnswers := by
  refine ⟨fun arg => congrArg Except.ok (decodeCommand_commandWord 5 arg), fun s i idx hi => ⟨?_, ?_⟩⟩
  · rw [exec_rdcfg hi, State.answerRead_eq]
    by_cases hidx : idx < 10
    · interval_cases idx <;> rfl
    · rw [cfgWord_of_ge i (Nat.le_of_not_lt hidx)]
      simp only [readResponse]
      repeat rw [if_neg (by omega)]
  · intro k t r h hr
    rw [exec_rdcfg hi, State.answerRead_eq] at hr
    obtain rfl : .response (readResponse (i.cfgWord idx)) = r := by simpa using hr
    rw [exec_rdcfg_of_run hi h, State.answerRead_eq]

/-- Settles O36: NOP responds OK 0. -/
theorem nopAnswers : Obligations.NopAnswers :=
  ⟨fun arg => congrArg Except.ok (decodeCommand_commandWord 0 arg), fun _ _ hi => exec_nop hi⟩

/-! ## DESCRIBE (R72, R143) -/

/-- Wherever the filter is `i`, operation `op` does nothing but respond OK with `w`. -/
def Answers (i : Instance) (op : Instr) (w : Word) : Prop :=
  ∀ s : State, s.inst = some i → exec op s = .next (s.respond .ok w)

theorem answers_rdgain (i : Instance) : Answers i .rdgain i.gain := fun _ => exec_rdgain

theorem answers_rdcfg {i : Instance} {idx : Nat} {w : Word} (h : i.cfgWord idx = some w) :
    Answers i (.rdcfg idx) w := by
  intro s hi
  rw [exec_rdcfg hi, h]
  rfl

theorem answers_rdtap {i : Instance} {idx : Nat} (hN : idx < i.N) (h : idx < i.taps.length) :
    Answers i (.rdtap idx) i.taps[idx] := by
  intro s hi
  rw [exec_rdtap hi, Instance.memRead_tap, if_pos hN, List.getElem?_eq_getElem h]
  rfl

theorem answers_rdsr {i : Instance} {idx : Nat} (hN : idx < i.N) (h : idx < i.sr.length) :
    Answers i (.rdsr idx) i.sr[idx] := by
  intro s hi
  rw [exec_rdsr hi, Instance.memRead_sr, if_pos hN, List.getElem?_eq_getElem h]
  rfl

/-- Reading the indexes below `n` in order answers the words of a list of length `n`. -/
theorem answers_range {i : Instance} {n : Nat} {ws : List Word} {read : Nat → Instr} (hlen : ws.length = n)
    (h : ∀ idx, idx < n → ∀ hidx : idx < ws.length, Answers i (read idx) ws[idx]) :
    List.Forall₂ (Answers i) ((List.range n).map read) ws := by
  refine List.forall₂_iff_get.mpr ⟨by simp [hlen], fun idx _ hidx => ?_⟩
  simpa using h idx (hlen ▸ hidx) hidx

theorem describe_answers {i : Instance} (hwf : i.wf = true) : List.Forall₂ (Answers i) (describe i.N)
    ([i.kind.zeroExtend 64, i.fs, i.f0, i.f1, i.gain, i.numTaps.signExtend 64] ++ i.taps ++ i.sr) := by
  have hheader : List.Forall₂ (Answers i) [.rdcfg 0, .rdcfg 2, .rdcfg 3, .rdcfg 4, .rdgain, .rdcfg 1]
      [i.kind.zeroExtend 64, i.fs, i.f0, i.f1, i.gain, i.numTaps.signExtend 64] :=
    .cons (answers_rdcfg rfl) <| .cons (answers_rdcfg rfl) <| .cons (answers_rdcfg rfl) <| .cons (answers_rdcfg rfl) <|
      .cons (answers_rdgain i) <| .cons (answers_rdcfg rfl) .nil
  have htaps : List.Forall₂ (Answers i) (tapsProgram i.N) i.taps :=
    answers_range (Instance.taps_length_of_wf hwf) fun _ => answers_rdtap
  have hsr : List.Forall₂ (Answers i) ((List.range i.N).map .rdsr) i.sr :=
    answers_range (Instance.sr_length_of_wf hwf) fun _ => answers_rdsr
  exact List.rel_append (List.rel_append hheader htaps) hsr

theorem runInstrs_cons {op : Instr} {prog : List Instr} {s t : State} (h : exec op s = .next t) :
    runInstrs (op :: prog) s = runInstrs prog t := by
  rw [runInstrs, h]

/-- A run of commands that only answer gives their answers, in order, and changes nothing else. -/
theorem runInstrs_of_answers {i : Instance} {prog : List Instr} {ws : List Word}
    (h : List.Forall₂ (Answers i) prog ws) {s : State} (hi : s.inst = some i) :
    runInstrs prog s =
      .next { s with outputs := s.outputs ++ ws.map fun w => .response (responseWord .ok w) } := by
  induction h generalizing s with
  | nil => rw [List.map_nil, List.append_nil, runInstrs]
  | @cons op w prog ws hop _ ih =>
    rw [runInstrs_cons (hop s hi), ih (s := s.respond .ok w) hi, List.map_cons, State.respond_outputs,
      List.append_assoc, List.singleton_append]
    rfl

/-- Settles O40: every command of DESCRIBE only answers. -/
theorem describeReadsSnapshot : Obligations.DescribeReadsSnapshot := fun _ _ hi hwf =>
  runInstrs_of_answers (describe_answers hwf) hi

/-! ## Accessors do not disturb the stream (R141) -/

/-- What `processResponses` takes from one operation that goes from `s` to `t`. -/
def processAnswer (op : Instr) (s t : State) : List HostOutput :=
  if isProcess op then t.outputs.drop s.outputs.length else []

theorem processResponses_cons {op : Instr} {prog : List Instr} {s t : State} (h : exec op s = .next t) :
    processResponses (op :: prog) s = processAnswer op s t ++ processResponses prog t := by
  rw [processResponses, h]
  rfl

theorem processAnswer_of_not_writesSr {op : Instr} (h : writesSr op = false) (s t : State) :
    processAnswer op s t = [] := by
  cases op with
  | process x => cases h
  | _ => rfl

/-- From two states with the same filter an operation answers PROCESS with the same result, whatever the draws
(R12, I3). -/
theorem sameResult_processAnswer {op : Instr} {s s' t t' : State} {i : Instance} (hi : s.inst = some i)
    (hi' : s'.inst = some i) (h : exec op s = .next t) (h' : exec op s' = .next t') :
    List.Forall₂ HostOutput.SameResult (processAnswer op s' t') (processAnswer op s t) := by
  cases op with
  | process x =>
    obtain rfl := Host.Outcome.next.inj ((exec_process hi x).symm.trans h)
    obtain rfl := Host.Outcome.next.inj ((exec_process hi' x).symm.trans h')
    have hvalue : B64.SameResult (outputValue (b64Draw s'.draws) i (shiftIn i.N x i.sr))
        (outputValue (b64Draw s.draws) i (shiftIn i.N x i.sr)) :=
      sameResult_outputValue (isNaN_draw _) (isNaN_draw _) i _
    simpa [processAnswer, isProcess, HostOutput.SameResult] using hvalue
  | _ => exact .nil

/-- Settles O41, by induction on the run: an operation that does not write the register leaves the filter and no
PROCESS response, and one that does makes the same of the same filter. -/
theorem accessorsDoNotDisturbTheStream : Obligations.AccessorsDoNotDisturbTheStream := by
  intro prog s s' t hprog hs hsame hrun
  obtain ⟨i, hi⟩ := Option.isSome_iff_exists.mp hs
  clear hs
  induction prog generalizing s s' i with
  | nil =>
    cases hrun
    exact ⟨s', rfl, hsame, .nil⟩
  | cons op prog ih =>
    obtain ⟨hop, hrest⟩ := List.forall_mem_cons.mp hprog
    obtain ⟨u, hu⟩ := exec_completes hop hi
    have hui := exec_next_inst hu hi
    rw [runInstrs_cons hu] at hrun
    rw [processResponses_cons hu]
    cases hw : writesSr op with
    | false =>
      rw [List.filter_cons_of_neg (by simp [hw]), processAnswer_of_not_writesSr hw, List.nil_append]
      rw [srAfter_of_not_writesSr hw, Instance.writeSr_self, ← hi] at hui
      exact ih u s' hrest (hsame.trans hui.symm) hrun i (hui.trans hi)
    | true =>
      rw [List.filter_cons_of_pos hw]
      have hi' : s'.inst = some i := hsame.trans hi
      obtain ⟨u', hu'⟩ := exec_completes hop hi'
      obtain ⟨t', ht', hinst, hresp⟩ := ih u u' hrest ((exec_next_inst hu' hi').trans hui.symm) hrun _ hui
      refine ⟨t', by rw [runInstrs_cons hu', ht'], hinst, ?_⟩
      rw [processResponses_cons hu']
      exact List.rel_append (sameResult_processAnswer hi hi' hu hu') hresp

end Sys2Proof.Machine
end

section
/-! PROOFS. What goes wrong and what does not happen (`spec/60_exceptions.md` R152, R157, R158, R162, R174): the first
violated constraint, the two error responses, the reset pin against a command, and the idle engine. -/

namespace Sys2Proof.Machine

/-! ## Validation (R152) -/

/-- Settles O10: an error is the first violated constraint and there is one only; validation passes exactly when nothing
is violated, with the kind that check 8 has read. -/
theorem validationReportsFirstViolation : Obligations.ValidationReportsFirstViolation := by
  refine fun F num kind n fs f0 f1 =>
    ⟨fun c => ⟨firstViolated_of_validate, validate_of_firstViolated⟩, fun k => ⟨fun h => ?_, ?_⟩⟩
  · exact ⟨satisfied_of_validate h, (validate_ok h).2⟩
  · rintro ⟨hall, hkind⟩
    obtain ⟨k', hv⟩ := validate_of_satisfied hall
    obtain rfl : k' = k := Option.some.inj ((validate_ok hv).2.symm.trans hkind)
    exact hv

/-! ## One act of the host (R162, R174) -/

theorem operation_edge_one (cmd : Option CommandWord) : (HostInput.edge 1 cmd).operation = some .reset := rfl

theorem operation_edge_idle : (HostInput.edge 0 none).operation = none := rfl

theorem step_of_no_inputs {s : State} (hs : s.inputs = []) : step s = .next s := by
  rw [step, hs]

section
variable {s : State} {h : HostInput} {rest : List HostInput} (hs : s.inputs = h :: rest)
include hs

theorem takeInput_of_cons : s.takeInput = { s with inputs := rest } := by
  rw [State.takeInput, hs, List.tail_cons]

theorem step_of_operation {op : Instr} (hop : h.operation = some op) :
    step s = exec op { s with inputs := rest } := by
  simp only [step, hs, hop, takeInput_of_cons hs]

theorem step_of_no_operation (hop : h.operation = none) : step s = .next { s with inputs := rest } := by
  simp only [step, hs, hop, takeInput_of_cons hs]

end

/-- Settles O7: the operation of an edge with `rst = 1` is RESET, whatever command stands on it. -/
theorem resetPinWinsOverCommand : Obligations.ResetPinWinsOverCommand :=
  fun _ cmd _ hs => step_of_operation hs (operation_edge_one cmd)

/-- Settles O8: an edge with neither a command nor `rst` has no operation. -/
theorem idleEngineKeepsItsState : Obligations.IdleEngineKeepsItsState :=
  ⟨fun _ _ hs => step_of_no_operation hs operation_edge_idle, fun _ => step_of_no_inputs⟩

/-! ## The error responses (R157, R158) -/

/-- The opcode map has no operation from code 6 on but the two illegal rows (R69). -/
theorem operationOf_of_six_le {op : BitVec 4} (h : 6 ≤ op.toNat) (arg : Word) :
    operationOf op arg = .illegal67 op ∨ operationOf op arg = .illegal8F op := by
  have hne (k : BitVec 4) (hk : k.toNat < 6) : op ≠ k := by
    rintro rfl
    exact hk.not_ge h
  rw [operationOf, if_neg (hne 0 (by decide)), if_neg (hne 1 (by decide)), if_neg (hne 2 (by decide)),
    if_neg (hne 3 (by decide)), if_neg (hne 4 (by decide)), if_neg (hne 5 (by decide))]
  by_cases h67 : op = 6 ∨ op = 7
  · exact .inl (if_pos h67)
  · exact .inr (if_neg h67)

/-- Settles O37: both illegal rows answer ILLEGAL_OP, and the codes from 6 on decode to them. -/
theorem illegalOpAnswers : Obligations.IllegalOpAnswers := by
  refine fun s i op hi => ⟨onInstance_some s i _ hi, onInstance_some s i _ hi, fun w hw => ?_⟩
  have hdecode : decode (.command w) = .ok (operationOf (opField w) (argField w)) :=
    congrArg Except.ok (decodeCommand_eq w)
  rw [hdecode]
  exact (operationOf_of_six_le hw (argField w)).imp (congrArg Except.ok) (congrArg Except.ok)

/-- The tap ROM and the shift register have nothing to read from `N` on (R41). -/
theorem memRead_of_N_le (i : Instance) {sp : Space} (hsp : sp ≠ .cfg) {idx : Nat} (h : i.N ≤ idx) :
    i.memRead sp idx = none := by
  cases sp with
  | tap => exact if_neg h.not_gt
  | sr => exact if_neg h.not_gt
  | cfg => exact absurd rfl hsp

/-- Settles O38: a read beyond its space gives nothing, and that is answered BAD_INDEX. -/
theorem badIndexAnswers : Obligations.BadIndexAnswers := by
  refine fun s i idx hi => ⟨fun h => ?_, fun h => ?_, fun h => ?_⟩
  · rw [exec_rdtap hi, memRead_of_N_le i (by decide) h]
    rfl
  · rw [exec_rdsr hi, memRead_of_N_le i (by decide) h]
    rfl
  · rw [exec_rdcfg hi, cfgWord_of_ge i h]
    rfl

end Sys2Proof.Machine
end

section
/-! PROOFS. RESET and negated taps (`spec/70_reset_and_hazards.md` R180, R181, R184, R188): what RESET clears and
leaves, the state before the first CONSTRUCT, and why the sign of a HighPass design of even `N` cancels. -/

namespace Sys2Proof.Machine.B64

/-! ## Values that agree up to the sign of a zero and the bits of a NaN (R12, R13) -/

/-- Words of one value are one word, two zeros, or two NaNs. -/
theorem SameValue.sameResult_or_isZero {a b : Word} (h : SameValue a b) :
    SameResult a b ∨ (isZero a = true ∧ isZero b = true) := by
  obtain hfeq | hnan := h
  · exact (eq_or_isZero_of_feq hfeq).imp_left .inl
  · exact .inl (.inr hnan)

theorem SameResult.sameValue {a b : Word} (h : SameResult a b) : SameValue a b := by
  obtain rfl | hnan := h
  · cases hn : isNaN a with
    | true => exact .inr ⟨hn, hn⟩
    | false => exact .inl (feq_self hn)
  · exact .inr hnan

theorem sameValue_of_isZero {a b : Word} (ha : isZero a = true) (hb : isZero b = true) : SameValue a b :=
  .inl (feq_of_isZero ha hb)

theorem SameValue.trans {a b c : Word} (hab : SameValue a b) (hbc : SameValue b c) : SameValue a c := by
  obtain hab | ⟨ha, hb⟩ := hab <;> obtain hbc | ⟨hb', hc⟩ := hbc
  · simp only [feq, Bool.and_eq_true, decide_eq_true_eq] at hab hbc
    exact .inl (by simp [feq, hab, hbc])
  · simp [feq, hb'] at hab
  · simp [feq, hb] at hbc
  · exact .inr ⟨ha, hc⟩

section
variable {q a a' b : Word}

theorem sameValue_draw (hq : isNaN q = true) : SameValue q q := .inr ⟨hq, hq⟩

/-- A zero added to `b` is `b`, up to the sign of a zero. -/
theorem feq_fadd_isZero_left (q : Word) (ha : isZero a = true) (hb : isNaN b = false) :
    feq b (fadd q a b) = true := by
  have h := feq_fneg_fsub_isZero q ha (x := fneg b) (by rwa [isNaN_fneg])
  rwa [fsub, fneg_fneg] at h

/-- The sign of a zero accumulator does not show in the sum. -/
theorem sameValue_fadd_left (hq : isNaN q = true) (h : SameValue a a') : SameValue (fadd q a b) (fadd q a' b) := by
  obtain h | ⟨ha, ha'⟩ := h.sameResult_or_isZero
  · exact (sameResult_fadd hq hq h (sameResult_refl b)).sameValue
  · cases hb : isNaN b with
    | true =>
      rw [fadd_of_isNaN q (.inr hb), fadd_of_isNaN q (.inr hb)]
      exact sameValue_draw hq
    | false =>
      refine SameValue.trans (b := b) (.inl ?_) (.inl (feq_fadd_isZero_left q ha' hb))
      rw [feq_comm]
      exact feq_fadd_isZero_left q ha hb

/-- The sign of a zero dividend does not show in the quotient. -/
theorem sameValue_fdiv_left (hq : isNaN q = true) (h : SameValue a a') : SameValue (fdiv q a b) (fdiv q a' b) := by
  obtain h | ⟨ha, ha'⟩ := h.sameResult_or_isZero
  · exact (sameResult_fdiv hq hq h (sameResult_refl b)).sameValue
  · cases hb : isNaN b with
    | true =>
      rw [fdiv_of_isNaN q (.inr hb), fdiv_of_isNaN q (.inr hb)]
      exact sameValue_draw hq
    | false =>
      cases hz : isZero b with
      | true =>
        rw [fdiv_of_isZero_right q (isFinite_of_isZero ha) hz, if_pos ha,
          fdiv_of_isZero_right q (isFinite_of_isZero ha') hz, if_pos ha']
        exact sameValue_draw hq
      | false => exact sameValue_of_isZero (isZero_fdiv_of_isZero q ha hb hz) (isZero_fdiv_of_isZero q ha' hb hz)

/-! ## Negated operands -/

/-- A sum is odd, up to the sign of a zero and the bits of a NaN. -/
theorem sameValue_fadd_fneg (hq : isNaN q = true) :
    SameValue (fadd q (fneg a) (fneg b)) (fneg (fadd q a b)) := by
  have hdraw : SameValue q (fneg q) := .inr ⟨hq, by rwa [isNaN_fneg]⟩
  by_cases hnan : isNaN a = true ∨ isNaN b = true
  · rwa [fadd_of_isNaN q hnan, fadd_of_isNaN q (by rwa [isNaN_fneg, isNaN_fneg])]
  simp only [not_or, Bool.not_eq_true] at hnan
  obtain ⟨ha, hb⟩ := hnan
  cases hia : isInf a with
  | true =>
    have hia' : isInf (fneg a) = true := by rwa [isInf_fneg]
    cases hib : isInf b with
    | true =>
      rw [fadd_of_isInf q hia hib, fadd_of_isInf q hia' (by rwa [isInf_fneg])]
      simp only [sign_fneg, Bool.not_inj_iff]
      split
      · exact (sameResult_refl _).sameValue
      · exact hdraw
    | false =>
      have hfin := isFinite_of_not hb hib
      rw [fadd_of_isInf_left q hia hfin, fadd_of_isInf_left q hia' (by rwa [isFinite_fneg])]
      exact (sameResult_refl _).sameValue
  | false =>
    have hfin := isFinite_of_not ha hia
    cases hib : isInf b with
    | true =>
      rw [fadd_of_isInf_right q hfin hib, fadd_of_isInf_right q (by rwa [isFinite_fneg]) (by rwa [isInf_fneg])]
      exact (sameResult_refl _).sameValue
    | false =>
      rw [SameValue, feq_comm]
      exact .inl (feq_fneg_fadd q q hfin (isFinite_of_not hb hib))

theorem fmul_comm (q a b : Word) : fmul q a b = fmul q b a := by
  simp only [fmul, Bool.or_comm, Bool.xor_comm, Nat.mul_comm]

/-- A product is odd in its second operand, but for the bits of a NaN. -/
theorem sameResult_fmul_fneg_right (hq : isNaN q = true) :
    SameResult (fmul q a (fneg b)) (fneg (fmul q a b)) := by
  cases h : isNaN (fmul q a b) with
  | false =>
    rw [fmul_comm q a b] at h
    exact .inl (by rw [fmul_comm q a (fneg b), fmul_comm q a b, fmul_fneg_left hq h])
  | true =>
    refine .inr ⟨?_, by rwa [isNaN_fneg]⟩
    by_contra hneg
    rw [Bool.not_eq_true, fmul_comm] at hneg
    have hback := fmul_fneg_left hq hneg q
    rw [fneg_fneg, fmul_comm q b a] at hback
    rw [hback, isNaN_fneg, hneg] at h
    cases h

/-- The signs of a quotient's operands cancel. -/
theorem fdiv_fneg_fneg_same_draw (q a b : Word) : fdiv q (fneg a) (fneg b) = fdiv q a b := by
  simp [fdiv, unitsMag_fneg]

end

end Sys2Proof.Machine.B64

namespace Sys2Proof.Machine

/-! ## Negated lanes (R112, R113) -/

/-- A word and its negation, but for the bits of a NaN. -/
def Negated (a' a : Word) : Prop := B64.SameResult a' (B64.fneg a)

theorem negated_taps (taps : List Word) : List.Forall₂ Negated (taps.map B64.fneg) taps := by
  rw [List.forall₂_map_left_iff, List.forall₂_same]
  exact fun t _ => B64.sameResult_refl _

section
variable {q : Word} (hq : B64.isNaN q = true)
include hq

/-- With negated taps every lane is negated. -/
theorem negated_products (sr taps : List Word) :
    List.Forall₂ Negated (products (b64 q) sr (taps.map B64.fneg)) (products (b64 q) sr taps) := by
  induction taps generalizing sr with
  | nil => cases sr <;> exact .nil
  | cons t taps ih =>
    cases sr with
    | nil => exact .nil
    | cons x sr => exact .cons (B64.sameResult_fmul_fneg_right hq) (ih sr)

/-- One step of the accumulator over a negated lane. -/
theorem sameValue_fadd_negated {a a' p p' : Word} (ha : B64.SameValue a' (B64.fneg a)) (hp : Negated p' p) :
    B64.SameValue (B64.fadd q a' p') (B64.fneg (B64.fadd q a p)) :=
  have hlane : B64.SameValue (B64.fadd q a' p') (B64.fadd q a' (B64.fneg p)) :=
    (B64.sameResult_fadd hq hq (B64.sameResult_refl a') hp).sameValue
  have hacc : B64.SameValue (B64.fadd q a' (B64.fneg p)) (B64.fadd q (B64.fneg a) (B64.fneg p)) :=
    B64.sameValue_fadd_left hq ha
  (hlane.trans hacc).trans (B64.sameValue_fadd_fneg hq)

theorem sameValue_foldl_negated {ps ps' : List Word} (h : List.Forall₂ Negated ps' ps) {a a' : Word}
    (ha : B64.SameValue a' (B64.fneg a)) :
    B64.SameValue (ps'.foldl (B64.fadd q) a') (B64.fneg (ps.foldl (B64.fadd q) a)) := by
  induction h generalizing a a' with
  | nil => exact ha
  | cons hp _ ih => exact ih (sameValue_fadd_negated hq ha hp)

/-- The sum of negated lanes, from the positive zero that every sum starts at. -/
theorem sameValue_accumulate_negated {ps ps' : List Word} (h : List.Forall₂ Negated ps' ps) :
    B64.SameValue (accumulate (b64 q) ps') (B64.fneg (accumulate (b64 q) ps)) :=
  sameValue_foldl_negated hq h (B64.sameValue_of_isZero B64.isZero_zero ((B64.isZero_fneg _).trans B64.isZero_zero))

/-- A gain that is not a zero is negated with the taps. -/
theorem negated_gainSum {taps : List Word} (hgain : B64.isZero (gainSum (b64 q) taps) = false) :
    Negated (gainSum (b64 q) (taps.map B64.fneg)) (gainSum (b64 q) taps) := by
  obtain h | ⟨-, hzero⟩ := (sameValue_accumulate_negated hq (negated_taps taps)).sameResult_or_isZero
  · exact h
  · rw [B64.isZero_fneg] at hzero
    exact absurd hzero (by rw [Bool.not_eq_true]; exact hgain)

/-- Negated sums over negated gains. -/
theorem sameValue_normalise_negated {raw raw' gain gain' : Word} (hraw : B64.SameValue raw' (B64.fneg raw))
    (hgain : Negated gain' gain) :
    B64.SameValue (normalise (b64 q) 1 raw' gain') (normalise (b64 q) 1 raw gain) := by
  have hdivisor : B64.SameValue (B64.fdiv q raw' gain') (B64.fdiv q raw' (B64.fneg gain)) :=
    (B64.sameResult_fdiv hq hq (B64.sameResult_refl raw') hgain).sameValue
  have hdividend := B64.sameValue_fdiv_left (b := B64.fneg gain) hq hraw
  rw [B64.fdiv_fneg_fneg_same_draw] at hdividend
  exact hdivisor.trans hdividend

end

/-- Settles O31: an even `N` has no centre tap, and elsewhere the kernels differ in a negation; negated taps negate the
sum and the gain, and in the quotient the two signs cancel. -/
theorem negatedTapsNormaliseToTheSameOutputs : Obligations.NegatedTapsNormaliseToTheSameOutputs := by
  refine ⟨fun q n N lambda phi heven hN hn => ?_, fun q sr taps hq hgain => ?_⟩
  · obtain ⟨hlow, hhigh, -⟩ := B64.tap_of_not_centre q lambda phi hN hn (by omega) rfl
    rw [hlow, hhigh]
  · exact sameValue_normalise_negated hq (sameValue_accumulate_negated hq (negated_products hq sr taps))
      (negated_gainSum hq hgain)

/-! ## RESET (R181) -/

theorem exec_reset {s : State} {i : Instance} (hi : s.inst = some i) :
    exec .reset s = .next (s.withInst (i.writeSr (zeroSr i.N))) :=
  onInstance_some s i _ hi

theorem State.withInst_self {s : State} {i : Instance} (hi : s.inst = some i) : s.withInst i = s := by
  cases s
  cases hi
  rfl

/-- The register of a filter in its reset state is what RESET writes. -/
theorem Instance.writeSr_zeroSr_self {i : Instance} (h : i.sr = zeroSr i.N) : i.writeSr (zeroSr i.N) = i := by
  rw [← h, Instance.writeSr_self]

/-- Settles O42: RESET writes `N` positive zeros, and after it PROCESS meets the filter it meets after construction,
with another draw. -/
theorem resetClearsOnlyTheRegister : Obligations.ResetClearsOnlyTheRegister := by
  refine ⟨rfl, fun s i hi => ⟨exec_reset hi, fun hsr => ?_, fun s₀ i₀ x hi₀ hsr₀ hsame => ?_⟩⟩
  · rw [exec_reset hi, Instance.writeSr_zeroSr_self hsr, State.withInst_self hi]
  · have hclear : i.writeSr (zeroSr i.N) = i₀ := by
      rw [hsame]
      exact Instance.writeSr_zeroSr_self hsr₀
    have hreset : exec .reset s = .next (s.withInst i₀) := by rw [exec_reset hi, hclear]
    have hrun := (runInstrs_cons (prog := [.process x]) hreset).trans
      (runInstrs_cons (exec_process (s.withInst_inst i₀) x))
    exact ⟨_, _, _, _, hrun, exec_process hi₀ x, rfl, rfl, rfl,
      sameResult_outputValue (isNaN_draw s.draws) (isNaN_draw s₀.draws) i₀ _⟩

/-! ## Before the first CONSTRUCT (R184) -/

theorem State.designed_of_inst_eq_none {s : State} (h : s.inst = none) : s.Designed := by
  intro i hi
  rw [h] at hi
  cases hi

/-- Settles O43: with no filter there is nothing to design or to measure. -/
theorem resetStateIsDesigned : Obligations.ResetStateIsDesigned :=
  ⟨State.designed_of_inst_eq_none State.reset_inst, Memory.wf_reset⟩

end Sys2Proof.Machine
end

section
/-! PROOFS. Decoding against encoding, in both directions (`spec/30_encoding.md` R65, R69, R71), and the step that a
decoded carrier starts (`spec/00_scope.md` R18). -/

namespace Sys2Proof

/-! ## From an instruction to its carrier and back -/

theorem decode_commandWord (op : BitVec 4) (arg : Word) :
    decode (.command (commandWord op arg)) = .ok (operationOf op arg) :=
  congrArg Except.ok (decodeCommand_commandWord op arg)

/-- An index that fits `ARG` is read back from it (R65(b)). -/
theorem toNat_ofNat_of_indexFits {idx : Nat} (h : indexFits idx = true) : (BitVec.ofNat 64 idx).toNat = idx := by
  rw [BitVec.toNat_ofNat, Nat.mod_eq_of_lt (of_decide_eq_true h)]

theorem wellFormed_illegal67 {op : BitVec 4} : (Instr.illegal67 op).wellFormed = true ↔ op = 6 ∨ op = 7 := by
  simp [Instr.wellFormed]

theorem operationOf_illegal67 {op : BitVec 4} (h : op = 6 ∨ op = 7) (arg : Word) :
    operationOf op arg = .illegal67 op := by
  obtain rfl | rfl := h
  · rfl
  · rfl

/-- The other illegal row is excluded because what the decoder gives is well formed. -/
theorem operationOf_illegal8F {op : BitVec 4} (h : 8 ≤ op.toNat) (arg : Word) :
    operationOf op arg = .illegal8F op := by
  refine (Machine.operationOf_of_six_le (le_trans (by decide) h) arg).resolve_left fun h67 => ?_
  have hwf := decodeCommand_wellFormed (commandWord op arg)
  rw [decodeCommand_commandWord, h67] at hwf
  obtain rfl | rfl := wellFormed_illegal67.mp hwf
  · exact absurd h (by decide)
  · exact absurd h (by decide)

/-- Settles O1: the code of a command selects its row of the opcode map, and its operand fits the field. -/
theorem decodeEncodeRoundTrip : Obligations.DecodeEncodeRoundTrip := by
  intro i hwf
  cases i with
  | construct r => exact congrArg (Except.ok ∘ Instr.construct) (recordFields_recordWord r)
  | reset => rfl
  | nop => exact decode_commandWord 0 0
  | process x => exact decode_commandWord 1 x
  | rdtap idx =>
    exact (decode_commandWord 2 _).trans (congrArg (Except.ok ∘ Instr.rdtap) (toNat_ofNat_of_indexFits hwf))
  | rdgain => exact decode_commandWord 3 0
  | rdsr idx =>
    exact (decode_commandWord 4 _).trans (congrArg (Except.ok ∘ Instr.rdsr) (toNat_ofNat_of_indexFits hwf))
  | rdcfg idx =>
    exact (decode_commandWord 5 _).trans (congrArg (Except.ok ∘ Instr.rdcfg) (toNat_ofNat_of_indexFits hwf))
  | illegal67 op =>
    have hop := wellFormed_illegal67.mp hwf
    exact (decode_commandWord op 0).trans (congrArg Except.ok (operationOf_illegal67 hop 0))
  | illegal8F op =>
    have hop : 8 ≤ op.toNat := of_decide_eq_true hwf
    exact (decode_commandWord op 0).trans (congrArg Except.ok (operationOf_illegal8F hop 0))

/-! ## From a command word to its operation and back -/

/-- The codes of the six legal commands, and the illegal codes (R69). -/
theorem code_cases (op : BitVec 4) :
    op = 0 ∨ op = 1 ∨ op = 2 ∨ op = 3 ∨ op = 4 ∨ op = 5 ∨ 6 ≤ op.toNat := by
  revert op
  decide

/-- An illegal code is kept, its `ARG` is not (log entry 11). -/
theorem encode_operationOf_of_six_le {op : BitVec 4} (h : 6 ≤ op.toNat) (arg : Word) :
    encode (operationOf op arg) = .command (commandWord op 0#64) := by
  obtain h67 | h8F := Machine.operationOf_of_six_le h arg
  · rw [h67]; rfl
  · rw [h8F]; rfl

/-- The codes whose operation has its operand in `ARG` (R65). -/
theorem encode_operationOf (op : BitVec 4) (arg : Word) :
    encode (operationOf op arg) =
      .command (commandWord op (if op = 1 ∨ op = 2 ∨ op = 4 ∨ op = 5 then arg else 0#64)) := by
  have hindex (k : BitVec 4) :
      Encoded.command (commandWord k (BitVec.ofNat 64 arg.toNat)) = .command (commandWord k arg) := by
    rw [BitVec.ofNat_toNat, BitVec.setWidth_eq]
  obtain rfl | rfl | rfl | rfl | rfl | rfl | hillegal := code_cases op
  · rfl
  · rfl
  · exact hindex 2
  · rfl
  · exact hindex 4
  · exact hindex 5
  · have hnone : ¬(op = 1 ∨ op = 2 ∨ op = 4 ∨ op = 5) := by
      rintro (rfl | rfl | rfl | rfl)
      all_goals exact absurd hillegal (by decide)
    rw [if_neg hnone, encode_operationOf_of_six_le hillegal]

/-- Settles O3: the operation keeps the code, and `ARG` where it has an operand. -/
theorem encodeOfDecodedCommand : Obligations.EncodeOfDecodedCommand := by
  intro op arg
  calc encode (decodeCommand (op ++ arg)) = encode (operationOf op arg) :=
        congrArg encode (decodeCommand_commandWord op arg)
    _ = _ := encode_operationOf op arg

end Sys2Proof

namespace Sys2Proof.Machine

/-! ## The act that presents a carrier (R61, R67) -/

/-- The host's act carries what decodes; a pin at 0 is carried by no act, and decodes to nothing. -/
theorem carried_inputOf {e : Encoded} {i : Instr} (h : decode e = .ok i) : (inputOf e).carried = some e := by
  cases e with
  | record r => rfl
  | command w => rfl
  | pin rst =>
    by_cases hrst : rst = 1
    · subst hrst; rfl
    · rw [decode, if_neg hrst] at h
      cases h

theorem operation_of_carried {act : HostInput} {e : Encoded} {i : Instr} (hcarried : act.carried = some e)
    (hdecode : decode e = .ok i) : act.operation = some i := by
  simp only [HostInput.operation, hcarried, hdecode]

/-- Settles O6: the act starts what its carrier decodes to. -/
theorem stepExecutesDecodedInstruction : Obligations.StepExecutesDecodedInstruction :=
  fun _ _ _ _ hdecode hs => step_of_operation hs (operation_of_carried (carried_inputOf hdecode) hdecode)

end Sys2Proof.Machine
end
